-- ==== Sys2Proof/Word.lean ====
section
/-! DEFINITION. The word types of the block: an input byte, a 32-bit register word, a transaction selector. -/

namespace Sys2Proof

/-- One byte of the input byte space (20_memory.md R35). -/
abbrev Byte := BitVec 8

/-- A host register and a command word: 32 bits (10_state.md R24, 30_encoding.md R53). -/
abbrev Word := BitVec 32

/-- The 3-bit selector `{WE, OFF[3:2]}` of a register transaction (30_encoding.md R55). -/
abbrev Sel := BitVec 3

end Sys2Proof
end

