-- ==== Sys2Proof/Syntax.lean ====
section
/-! DEFINITION. The instructions: one constructor per row of spec/opcode_table.json (30_encoding.md R63),
and the command words that a WR_CTRL carries (R57). -/

namespace Sys2Proof

/-- The block's instructions in the table's order: CTRL commands, engine steps, register transactions. -/
inductive Instr where
  /-- NOP. `argPresent` is the ignored bit 1 of the command word (42_host_interface.md R93). -/
  | nop (argPresent : Bool)
  /-- START (R95). -/
  | start
  /-- START_ABSENT (R97). -/
  | startAbsent
  /-- A command word with a bit of 31..2 set (30_encoding.md R62). -/
  | reservedCtrl (w : Word)
  /-- ABSORB of a nonzero input byte (40_djb2_hash_engine.md R68). -/
  | absorb (c : Byte)
  /-- FINALIZE, on the terminator (R70). -/
  | finalize
  /-- RD_CTRL (42_host_interface.md R99). -/
  | rdCtrl
  /-- RD_STATUS (R100). -/
  | rdStatus
  /-- RD_BASE (R101). -/
  | rdBase
  /-- RD_RESULT (R102). -/
  | rdResult
  /-- WR_CTRL, the transport of a command word (R94). -/
  | wrCtrl (data : Word)
  /-- WR_STATUS, discarded (R104). -/
  | wrStatus (data : Word)
  /-- WR_BASE (R103). -/
  | wrBase (data : Word)
  /-- WR_RESULT, discarded (R104). -/
  | wrResult (data : Word)
deriving DecidableEq, Repr

/-- The lines of the command table of 30_encoding.md R57. -/
inductive Command where
  | reserved (w : Word)
  | nop (argPresent : Bool)
  | start
  | startAbsent
deriving DecidableEq, Repr

/-- The instruction that a command is. -/
def Command.toInstr : Command → Instr
  | .reserved w => .reservedCtrl w
  | .nop a => .nop a
  | .start => .start
  | .startAbsent => .startAbsent

/-- The formats of 30_encoding.md, each read on a port of its own: the CTRL command word (R53), the
engine's input byte (R54), the host's register transaction (R55). -/
inductive Port where
  | ctrl
  | byte
  | hostTx
deriving DecidableEq, Repr

end Sys2Proof
end

