-- ==== Sys2Proof/WellFormed.lean ====
section
/-! DEFINITION. Which terms of `Instr` are instructions: the constraints of spec/opcode_table.json. -/

namespace Sys2Proof

/-- The table's two constraints: ABSORB has `c != 0x00` (30_encoding.md R58) and a reserved word has
a bit of 31..2 set (R57, R62). Every other operand may hold any value. -/
def Instr.wellFormed : Instr → Bool
  | .nop _ => true
  | .start => true
  | .startAbsent => true
  | .reservedCtrl w => w.extractLsb' 2 30 != 0
  | .absorb c => c != 0
  | .finalize => true
  | .rdCtrl => true
  | .rdStatus => true
  | .rdBase => true
  | .rdResult => true
  | .wrCtrl _ => true
  | .wrStatus _ => true
  | .wrBase _ => true
  | .wrResult _ => true

end Sys2Proof
end

