-- ==== Sys2Proof/Decode.lean ====
section
/-! DEFINITION. The decoders of 30_encoding.md, one per format, total on any bytes and rejecting by name;
after them the encoder, written from the same tables. -/

namespace Sys2Proof

/-- Why bytes are no instruction of a port. -/
inductive DecodeError where
  /-- The port's instructions have another length (30_encoding.md R56). Safe: nothing runs. -/
  | wrongLength (p : Port) (given : Nat)
  /-- A selector of more than three bits (30_encoding.md R55). Safe: nothing runs. -/
  | selectorTooWide (b : Byte)
deriving DecidableEq, Repr

/-! ### The three decoders -/

/-- Command decode of a WR_CTRL data word (30_encoding.md R57): the first matching line wins. -/
def decodeCommand (w : Word) : Command :=
  if w.extractLsb' 2 30 ≠ 0 then .reserved w
  else if w.getLsbD 0 = false then .nop (w.getLsbD 1)
  else if w.getLsbD 1 then .start
  else .startAbsent

/-- The instruction a command word is (30_encoding.md R57). -/
def decodeCtrl (w : Word) : Instr := (decodeCommand w).toInstr

/-- Byte decode, of the byte the engine reads while BUSY (30_encoding.md R58). -/
def decodeByte (b : Byte) : Instr := if b = 0 then .finalize else .absorb b

/-- Transaction decode by `SEL = {WE, OFF[3:2]}` (30_encoding.md R55). -/
def decodeHostTx (sel : Sel) (data : Word) : Instr :=
  match sel.getLsbD 2, sel.getLsbD 1, sel.getLsbD 0 with
  | false, false, false => .rdCtrl
  | false, false, true => .rdStatus
  | false, true, false => .rdBase
  | false, true, true => .rdResult
  | true, false, false => .wrCtrl data
  | true, false, true => .wrStatus data
  | true, true, false => .wrBase data
  | true, true, true => .wrResult data

/-! ### Bytes of a port -/

/-- Byte lane `j` of a register value: bits `[8j+7:8j]` (20_memory.md R43). -/
def lane (w : Word) (j : Nat) : Byte := w.extractLsb' (8 * j) 8

/-- A word as its four little-endian byte lanes (20_memory.md R43). -/
def wordBytes (w : Word) : List Byte := [lane w 0, lane w 1, lane w 2, lane w 3]

/-- The word with the given byte lanes, lowest first (20_memory.md R43). -/
def bytesWord (b0 b1 b2 b3 : Byte) : Word := b3 ++ b2 ++ b1 ++ b0

/-- Decode the bytes presented on a port: four of a command word, one input byte, or the selector
(in the low three bits of a byte) with the four lanes of DATA (assumption 15). -/
def decode : Port → List Byte → Except DecodeError Instr
  | .ctrl, [b0, b1, b2, b3] => .ok (decodeCtrl (bytesWord b0 b1 b2 b3))
  | .byte, [b] => .ok (decodeByte b)
  | .hostTx, [sel, b0, b1, b2, b3] =>
    if sel.extractLsb' 3 5 ≠ 0 then .error (.selectorTooWide sel)
    else .ok (decodeHostTx (sel.setWidth 3) (bytesWord b0 b1 b2 b3))
  | p, bs => .error (.wrongLength p bs.length)

/-! ### The encoder -/

/-- The port on which an instruction is presented (30_encoding.md R63). -/
def Instr.port : Instr → Port
  | .nop _ => .ctrl
  | .start => .ctrl
  | .startAbsent => .ctrl
  | .reservedCtrl _ => .ctrl
  | .absorb _ => .byte
  | .finalize => .byte
  | .rdCtrl => .hostTx
  | .rdStatus => .hostTx
  | .rdBase => .hostTx
  | .rdResult => .hostTx
  | .wrCtrl _ => .hostTx
  | .wrStatus _ => .hostTx
  | .wrBase _ => .hostTx
  | .wrResult _ => .hostTx

/-- The bytes of a transaction: its selector, then the lanes of DATA. A read drives no DATA and its
lanes are zero (30_encoding.md R55). -/
def encodeHostTx (sel : Sel) (data : Word) : List Byte := sel.setWidth 8 :: wordBytes data

/-- The bytes of an instruction on its port, from the opcode map 30_encoding.md R63. -/
def encode : Instr → List Byte
  | .nop a => wordBytes (if a then 0x00000002#32 else 0x00000000#32)
  | .start => wordBytes 0x00000003#32
  | .startAbsent => wordBytes 0x00000001#32
  | .reservedCtrl w => wordBytes w
  | .absorb c => [c]
  | .finalize => [0x00#8]
  | .rdCtrl => encodeHostTx 0b000#3 0
  | .rdStatus => encodeHostTx 0b001#3 0
  | .rdBase => encodeHostTx 0b010#3 0
  | .rdResult => encodeHostTx 0b011#3 0
  | .wrCtrl data => encodeHostTx 0b100#3 data
  | .wrStatus data => encodeHostTx 0b101#3 data
  | .wrBase data => encodeHostTx 0b110#3 data
  | .wrResult data => encodeHostTx 0b111#3 data

/-! ### The opcode table's words -/

/-- The port that a table word of `nbits` bits is presented on. A word of 32 bits is a command word.
One of 3 bits, or of 40 (the selector's byte and DATA), is a transaction. In whole bytes the table's
8-bit input bytes and 3-bit selectors have one width: there 0 and every value above 7 is an input
byte, and 1 to 7 are selectors (DESIGN CHOICE, assumption 15; the machine itself never uses this). -/
def tablePort (nbits w : Nat) : Option Port :=
  if nbits = 32 then some .ctrl
  else if nbits = 3 ∨ nbits = 40 then some .hostTx
  else if nbits = 8 then (if 0 < w ∧ w < 8 then some .hostTx else some .byte)
  else none

/-- A table word as the bytes of its port; what the table gives no bits is zero. -/
def tableBytes (p : Port) (w : Nat) : List Byte :=
  match p with
  | .ctrl => wordBytes (BitVec.ofNat 32 w)
  | .byte => [BitVec.ofNat 8 w]
  | .hostTx => BitVec.ofNat 8 w :: wordBytes (BitVec.ofNat 32 (w / 256))

/-- The instruction that the decoder reads from a word numbered as spec/opcode_table.json numbers it. -/
def decodeTableWord (nbits w : Nat) : Option Instr :=
  match tablePort nbits w with
  | none => none
  | some p =>
    match decode p (tableBytes p w) with
    | .ok i => some i
    | .error _ => none

end Sys2Proof
end

