-- ==== Sys2Proof/Config.lean ====
section
/-! DEFINITION. What the platform fixes (the spec's OPEN parameters, as plain data) and the free values:
constants without a body, of which nothing can be proved. -/

namespace Sys2Proof.Config

/-- The OPEN parameters of one block's platform. It is plain data that no step changes, so that a
statement about every state is a statement about every platform (assumption 3). -/
structure Platform where
  /-- ADDR_W less one: `1 <= ADDR_W <= 32` (00_scope.md R3). -/
  addrWidthPred : Fin 32
  /-- BLOCK_BASE, the platform address of the register window (00_scope.md R7, 20_memory.md R41). -/
  blockBase : Nat
  /-- The inclusive address ranges where READABLE is false (20_memory.md R37). -/
  unreadable : List (Nat × Nat)
deriving DecidableEq, Repr

/-- ADDR_W (00_scope.md R3). -/
def Platform.addrW (p : Platform) : Nat := p.addrWidthPred.val + 1

/-- The number of addresses of the input byte space, `2^ADDR_W` (20_memory.md R35). -/
def Platform.space (p : Platform) : Nat := 2 ^ p.addrW

/-- The platform of `State.reset`: ADDR_W = 32 and every address readable, as 95_test_vectors.md takes
them, and BLOCK_BASE = 0 (DESIGN CHOICE, assumption 3). -/
def defaultPlatform : Platform := { addrWidthPred := 31, blockBase := 0, unreadable := [] }

/-- FREE VALUE: what RESULT holds when a run over an input that changed during BUSY finishes
(20_memory.md R39, 93_implementation_defined.md U3). It is drawn by the instance's window base and a count,
so that nothing relates the values of two instances, whose windows are apart (assumptions 11 and 17). -/
opaque unspecifiedResult : Nat → Nat → Word

/-- FREE VALUE: one less than the host's exit status on a missing argument; the spec says only that the
status is not zero (42_host_interface.md R109, 93_implementation_defined.md U13). -/
opaque missingArgumentExitPred : Nat → Nat

/-- FREE VALUE: the host's message on a missing argument (42_host_interface.md R109, U13). -/
opaque missingArgumentMessage : Nat → List Char

end Sys2Proof.Config
end

