-- ==== Sys2Proof/Machine/State.lean ====
section
/-! DEFINITION. The state of one block and of the platform around it, as plain data; the reasons a step
can stop; the state after reset. -/

namespace Sys2Proof.Machine

open Sys2Proof.Config

/-- STATE, the sequencing state (10_state.md R17). -/
inductive RunState where
  | idle
  | busy
  | done
  | error
deriving DecidableEq, Repr

/-- A bus access of the host: direction, platform address, size in bytes and data. Only an aligned
32-bit access inside the window is a transaction of the block (20_memory.md R41, R42). -/
structure Access where
  write : Bool
  addr : Nat
  size : Nat
  data : Word
deriving DecidableEq, Repr

/-- One entry of the total order of atomic steps (00_scope.md R11, 20_memory.md R48). -/
inductive Event where
  /-- The engine may take its step (40_djb2_hash_engine.md R65). -/
  | engine
  /-- The host performs a bus access (42_host_interface.md R105). -/
  | host (a : Access)
  /-- The reset input is asserted (70_reset_and_hazards.md R133). -/
  | reset
  /-- A byte of the input byte space is placed or changed from outside the block
  (20_memory.md R39, 42_host_interface.md R106). -/
  | place (a : Nat) (b : Byte)
deriving DecidableEq, Repr

/-- Why the machine stops. -/
inductive Fault where
  /-- Raised by a step with no pending event while STATE = BUSY and the byte at PTR is not readable: no
  agent has a step (20_memory.md R37, 93_implementation_defined.md U5). Safe. -/
  | engineStuck
  /-- Raised when a byte is placed at an address that the input byte space does not have
  (20_memory.md R35). Safe. -/
  | addressOutsideSpace
deriving DecidableEq, Repr

/-- Why a step has no meaning. -/
inductive Refusal where
  /-- Raised by an arm of `exec` whose instruction has no meaning yet. Safe. -/
  | notModelled (mnemonic : String)
  /-- Raised by a host access that is not exactly 32 bits wide (20_memory.md R42, U4). Safe. -/
  | accessNotWord
  /-- Raised by a host access outside the four registers of the window (20_memory.md R42, U4). Safe. -/
  | accessOutsideWindow
  /-- Raised by a host access at an offset that is no multiple of 4 (20_memory.md R42, U4). Safe. -/
  | accessMisaligned
  /-- Raised by ABSORB and FINALIZE when STATE is not BUSY, where the engine has no step
  (40_djb2_hash_engine.md R65); no step of the machine comes to it. Safe. -/
  | engineNotBusy
  /-- Raised by a step of an instance that the platform does not have (60_exceptions.md R126). Safe. -/
  | noSuchInstance
deriving DecidableEq, Repr

/-- The input byte space: the bytes that are not zero, by rising address (assumption 2). -/
abbrev Memory := List Host.Cell

/-- One instance of the block (10_state.md R13), the platform around it, and the model's own records. -/
structure State where
  /-- The platform's parameters, which no step changes. -/
  platform : Platform
  /-- ACC (R14). -/
  acc : Word
  /-- LEN (R15). -/
  len : BitVec 8
  /-- PTR, in the low ADDR_W bits (R16). -/
  ptr : Word
  /-- STATE (R17). -/
  st : RunState
  /-- ERR_CODE (R18). -/
  errCode : BitVec 8
  /-- BASE, in the low ADDR_W bits (R19). -/
  base : Word
  /-- RESULT (R20). -/
  result : Word
  /-- The input byte space (20_memory.md R35). -/
  mem : Memory
  /-- DATA of the last read transaction (30_encoding.md R55). -/
  rdData : Word
  /-- The pending events, oldest first (20_memory.md R48). -/
  events : List Event
  /-- The model's record of `b0`: BASE when the current run's START was accepted (10_state.md R27). -/
  runStart : Word
  /-- The model's record of the addresses whose byte changed during the current run (20_memory.md R39). -/
  changed : List Nat
  /-- The model's record of `s[0..k-1]`, the bytes the current or last run absorbed, oldest first
(10_state.md R27, R28; assumption 10). -/
  consumed : List Byte
  /-- The model's counter of free values drawn (assumption 11). -/
  freeCount : Nat
deriving DecidableEq, Repr

/-- The machine right after reset, on the default platform (10_state.md R29, 70_reset_and_hazards.md
R133). STATE, ERR_CODE, BASE and RESULT are the spec's; ACC, LEN and PTR are zero by assumption 1, the
memory lists nothing (assumption 2) and the model's own fields are empty. -/
def State.reset : State where
  platform := defaultPlatform
  acc := 0
  len := 0
  ptr := 0
  st := .idle
  errCode := 0
  base := 0
  result := 0
  mem := []
  rdData := 0
  events := []
  runStart := 0
  changed := []
  consumed := []
  freeCount := 0

end Sys2Proof.Machine
end

