-- ==== Sys2Proof/Machine/Hash.lean ====
section
/-! DEFINITION. The pure functions of the block (00_scope.md R12): the djb2 recurrence, the packing, and
the whole computation. They are written for any accumulator width; the hardware's is 32 (R1). -/

namespace Sys2Proof.Machine

/-- SEED (00_scope.md R4). -/
def seed : Nat := 5381

/-- MULT (00_scope.md R4). -/
def multiplier : Nat := 33

/-- HASH_MASK (00_scope.md R4). -/
def hashMask : Word := 0x00FFFFFF#32

/-- LEN_MASK (00_scope.md R4). -/
def lenMask : Nat := 0xFF

/-- LEN_SHIFT (00_scope.md R4). -/
def lenShift : Nat := 24

/-- `DJB2_STEP(h, c) = (h * 33 + c) mod 2^HASH_W`, computed on unbounded integers and then reduced; the
byte is taken unsigned (40_djb2_hash_engine.md R66, 00_scope.md R5). -/
def djb2Step {w : Nat} (h : BitVec w) (c : Byte) : BitVec w :=
  BitVec.ofNat w (h.toNat * multiplier + c.toNat)

/-- The recurrence over a string from the seed (40_djb2_hash_engine.md R66, R67). -/
def djb2 (w : Nat) (s : List Byte) : BitVec w := s.foldl djb2Step (BitVec.ofNat w seed)

/-- `LENGTH_SHIFTED(n) = (n & 0xFF) << 24` (41_hash_length_packer.md R80). -/
def lengthShifted (n : Nat) : Word := BitVec.ofNat 32 (n &&& lenMask) <<< lenShift

/-- `MASKED_HASH(h) = h & 0x00FFFFFF`, of an accumulator of any width (41_hash_length_packer.md R81). -/
def maskedHash {w : Nat} (h : BitVec w) : Word := h.setWidth 32 &&& hashMask

/-- `PACK(h, n) = MASKED_HASH(h) | LENGTH_SHIFTED(n)` (41_hash_length_packer.md R81). -/
def pack {w : Nat} (h : BitVec w) (n : Nat) : Word := maskedHash h ||| lengthShifted n

/-- `COMPUTE(s)` of a string without its terminator, at the hardware's width (41_hash_length_packer.md
R83). -/
def compute (s : List Byte) : Word := pack (djb2 32 s) s.length

end Sys2Proof.Machine
end

