-- ==== Sys2Proof/Machine/Ops.lean ====
section
/-! DEFINITION. The named operations: the input byte space, the register updates, raising InvalidInput
and the start that leaves it, reset. -/

namespace Sys2Proof.Machine

open Sys2Proof.Config

/-! ### The input byte space -/

/-- What an address that no entry lists reads as (DESIGN CHOICE, assumption 2). -/
def Memory.unlisted : Byte := 0

/-- The byte at an address. -/
def Memory.read : Memory → Nat → Byte
  | [], _ => Memory.unlisted
  | (k, v) :: t, a => if k = a then v else Memory.read t a

/-- Place a byte, keeping the canonical form. -/
def Memory.write : Memory → Nat → Byte → Memory
  | [], a, b => if b = Memory.unlisted then [] else [(a, b)]
  | (k, v) :: t, a, b =>
    if a < k then (if b = Memory.unlisted then (k, v) :: t else (a, b) :: (k, v) :: t)
    else if a = k then (if b = Memory.unlisted then t else (a, b) :: t)
    else (k, v) :: Memory.write t a b

/-- The canonical form: addresses strictly rising, no entry equal to what an unlisted address reads as. -/
def Memory.wf (m : Memory) : Bool :=
  decide (m.Pairwise fun c d => c.1 < d.1) && m.all fun c => c.2 != Memory.unlisted

/-- READABLE(a): an address of the input byte space that the platform lets be read (20_memory.md R35,
R37). -/
def readable (p : Platform) (a : Nat) : Bool :=
  decide (a < p.space) && p.unreadable.all fun r => !(decide (r.1 ≤ a) && decide (a ≤ r.2))

/-- The `n` bytes from address `a` on, in increasing address order mod `2^ADDR_W` (20_memory.md R46). -/
def inputBytes (p : Platform) (m : Memory) (a : Nat) : Nat → List Byte
  | 0 => []
  | n + 1 => inputBytes p m a n ++ [m.read ((a + n) % p.space)]

/-- `n mod 2^ADDR_W` in a 32-bit register: how PTR and BASE hold an address (10_state.md R16, R19). -/
def wrapAddress (p : Platform) (n : Nat) : Word := BitVec.ofNat 32 (n % p.space)

/-! ### Register updates -/

/-- The event list after some of it has been taken. -/
def setEvents (es : List Event) (s : State) : State := { s with events := es }

/-- A read transaction returns DATA (30_encoding.md R55); a register read has no other effect
(42_host_interface.md R98). -/
def returnData (v : Word) (s : State) : State := { s with rdData := v }

/-- The start address that INIT samples: `BASE[ADDR_W-1:0]` (40_djb2_hash_engine.md R67). -/
def startAddress (s : State) : Word := wrapAddress s.platform s.base.toNat

/-- INIT, the update of an accepted START (40_djb2_hash_engine.md R67, 42_host_interface.md R95), and the
only way but reset out of ERROR (60_exceptions.md R121). -/
def init (s : State) : State :=
  { s with
    acc := BitVec.ofNat 32 seed
    len := 0
    ptr := startAddress s
    errCode := 0x00
    st := .busy
    runStart := startAddress s
    changed := []
    consumed := [] }

/-- The ERR_CODE of InvalidInput (60_exceptions.md R115). -/
def invalidInputCode : BitVec 8 := 0x01

/-- `raise InvalidInput`: the error is recorded, nothing is saved and nothing is vectored
(60_exceptions.md R116, R120). -/
def raiseInvalidInput (s : State) : State := { s with errCode := invalidInputCode, st := .error }

/-- The update of ABSORB (40_djb2_hash_engine.md R68, R69), with the model's record of the byte
(assumption 10). -/
def absorbByte (c : Byte) (s : State) : State :=
  { s with
    acc := djb2Step s.acc c
    len := BitVec.ofNat 8 (s.len.toNat + 1)
    ptr := wrapAddress s.platform (s.ptr.toNat + 1)
    consumed := s.consumed ++ [c] }

/-- Whether a byte that the run reads, from its start up to and including the terminator at PTR, has been
changed while it ran: the broken duty of 20_memory.md R39 (assumption 10). -/
def dutyBroken (s : State) : Bool :=
  s.changed.any fun a =>
    decide ((a + s.platform.space - s.runStart.toNat) % s.platform.space ≤
      (s.ptr.toNat + s.platform.space - s.runStart.toNat) % s.platform.space)

/-- What FINALIZE writes to RESULT: `PACK(ACC, LEN)` (41_hash_length_packer.md R82), or any value where
the input was changed during the run (20_memory.md R39, 93_implementation_defined.md U3). The free value is
the model's choice: it is drawn by the instance's window base and its own count of such runs, so that those of
two instances (60_exceptions.md R126), and of two runs of one, may be equal or differ (assumptions 11, 17). -/
def finalResult (s : State) : Word :=
  if dutyBroken s then unspecifiedResult s.platform.blockBase s.freeCount else pack s.acc s.len.toNat

/-- The update of FINALIZE, one atomic step (40_djb2_hash_engine.md R70). -/
def finalizeRun (s : State) : State :=
  { s with
    result := finalResult s
    st := .done
    freeCount := if dutyBroken s then s.freeCount + 1 else s.freeCount }

/-- The reset input, asserted in any STATE (70_reset_and_hazards.md R133): the block's state takes its
reset values; the platform, the memory, the host's DATA and the pending events are not the block's. -/
def applyReset (s : State) : State :=
  { State.reset with
    platform := s.platform
    mem := s.mem
    rdData := s.rdData
    events := s.events
    freeCount := s.freeCount }

/-- A byte placed from outside the block. During BUSY a changed byte is recorded (20_memory.md R39). -/
def placeByte (a : Nat) (b : Byte) (s : State) : State :=
  { s with
    mem := if s.mem.read a = b then s.mem else s.mem.write a b
    changed := if s.mem.read a ≠ b ∧ s.st = .busy then a :: s.changed else s.changed }

/-- An engine instruction acts only while STATE = BUSY, where alone the engine has a step
(40_djb2_hash_engine.md R65). -/
def whenBusy (s : State) (f : State → State) : Host.Outcome State Fault Refusal :=
  if s.st = .busy then .next (f s) else .refused .engineNotBusy

/-- A START or START_ABSENT acts in IDLE, DONE and ERROR and is ignored in BUSY (42_host_interface.md
R95, R96, R97). -/
def unlessBusy (s : State) (f : State → State) : Host.Outcome State Fault Refusal :=
  if s.st = .busy then .next s else .next (f s)

end Sys2Proof.Machine
end

