-- ==== Sys2Proof/Machine/Operands.lean ====
section
/-! DEFINITION. Where operands and instructions come from: BASE's width, the register window, and the
byte the engine reads. -/

namespace Sys2Proof.Machine

open Sys2Proof.Config

/-- `2^ADDR_W - 1` as a register mask (10_state.md R19). -/
def addressMask (p : Platform) : Word := BitVec.ofNat 32 (p.space - 1)

/-- What a host write leaves in BASE: `v & (2^ADDR_W - 1)` (10_state.md R19, 42_host_interface.md R103). -/
def baseWritten (p : Platform) (v : Word) : Word := v &&& addressMask p

/-- What a host read of BASE returns: `zext_32(BASE[ADDR_W-1:0])` (42_host_interface.md R101). -/
def baseRead (s : State) : Word := s.base &&& addressMask s.platform

/-- A host write to BASE; PTR is not touched (42_host_interface.md R103). -/
def writeBase (v : Word) (s : State) : State := { s with base := baseWritten s.platform v }

/-! ### Register window -/

/-- The size of the register window in bytes: four 32-bit registers (20_memory.md R41). -/
def windowSize : Nat := 16

/-- `SEL = {WE, OFF[3:2]}` (30_encoding.md R55). -/
def selector (write : Bool) (off : Nat) : Sel := BitVec.ofBool write ++ BitVec.ofNat 2 (off / 4)

/-- The instruction that a host access is: exactly 32 bits, in the window, at an offset that is a multiple
of 4 (20_memory.md R41, R42, R44); any other is refused by name (93_implementation_defined.md U4). -/
def hostInstr (p : Platform) (a : Access) : Except Refusal Instr :=
  if a.size ≠ 4 then .error .accessNotWord
  else if a.addr < p.blockBase ∨ p.blockBase + windowSize ≤ a.addr then .error .accessOutsideWindow
  else if (a.addr - p.blockBase) % 4 ≠ 0 then .error .accessMisaligned
  else .ok (decodeHostTx (selector a.write (a.addr - p.blockBase)) a.data)

/-- The aligned 32-bit access that presents selector `sel` with `data` at the window. -/
def accessOf (p : Platform) (sel : Sel) (data : Word) : Access where
  write := sel.getLsbD 2
  addr := p.blockBase + 4 * (sel.extractLsb' 0 2).toNat
  size := 4
  data := data

/-! ### The engine's fetch -/

/-- The engine has an enabled step exactly when STATE = BUSY and READABLE(PTR) (40_djb2_hash_engine.md
R65). -/
def engineEnabled (s : State) : Bool := decide (s.st = .busy) && readable s.platform s.ptr.toNat

/-- `MemRead(PTR, 1)` (20_memory.md R36). -/
def fetchByte (s : State) : Byte := s.mem.read s.ptr.toNat

/-- The engine's next instruction, where it has a step (40_djb2_hash_engine.md R65, 30_encoding.md R58). -/
def engineInstr (s : State) : Option Instr :=
  if engineEnabled s then some (decodeByte (fetchByte s)) else none

end Sys2Proof.Machine
end

