-- ==== Sys2Proof/Machine/Flags.lean ====
section
/-! DEFINITION. The status the block exposes: STATE and ERR_CODE as the STATUS view. There are no other
flags (10_state.md R23). -/

namespace Sys2Proof.Machine

/-- The 2-bit code of STATE (10_state.md R17). -/
def RunState.code : RunState → BitVec 2
  | .idle => 0
  | .busy => 1
  | .done => 2
  | .error => 3

/-- `STATUS = zext_32({ERR_CODE, 6'b000000, STATE})` (10_state.md R22). -/
def statusWord (s : State) : Word := (s.errCode ++ 0b000000#6 ++ s.st.code).setWidth 32

/-- `wait` ends on a STATUS with `r[1:1] = 1`: DONE or ERROR (30_encoding.md R61). -/
def statusFinished (r : Word) : Bool := r.getLsbD 1

/-- The word a 32-bit read at window offset `off` returns: CTRL reads 0, STATUS, BASE, RESULT
(20_memory.md R41). -/
def registerWord (s : State) (off : Nat) : Word :=
  if off = 0x04 then statusWord s
  else if off = 0x08 then baseRead s
  else if off = 0x0C then s.result
  else 0x00000000#32

/-- The window seen as bytes with little-endian lanes: the byte at platform address `a` is bits
`[8j+7:8j]` of the register at `off`, where `a = BLOCK_BASE + off + j` (20_memory.md R43). It is a view;
a byte access on the bus is refused (R42). -/
def windowByte (s : State) (a : Nat) : Option Byte :=
  if a < s.platform.blockBase ∨ s.platform.blockBase + windowSize ≤ a then none
  else
    let o := a - s.platform.blockBase
    some (lane (registerWord s (4 * (o / 4))) (o % 4))

end Sys2Proof.Machine
end

