-- ==== Sys2Proof/Machine/Engine.lean ====
section
/-! DEFINITION. The meanings of the engine's steps (40_djb2_hash_engine.md section 3). -/

namespace Sys2Proof.Machine

/-- ABSORB of the byte read at PTR (40_djb2_hash_engine.md R68). -/
def execAbsorb (c : Byte) (s : State) : Host.Outcome State Fault Refusal := whenBusy s (absorbByte c)

/-- FINALIZE, on the terminator at PTR (40_djb2_hash_engine.md R70). -/
def execFinalize (s : State) : Host.Outcome State Fault Refusal := whenBusy s finalizeRun

end Sys2Proof.Machine
end

