-- ==== Sys2Proof/Machine/HostRead.lean ====
section
/-! DEFINITION. The meanings of the register reads (42_host_interface.md section 2): each returns its value
without side effect, in every STATE (R98). -/

namespace Sys2Proof.Machine

/-- RD_CTRL returns zero: CTRL has no storage (42_host_interface.md R99). -/
def execRdCtrl (s : State) : Host.Outcome State Fault Refusal := .next (returnData 0x00000000#32 s)

/-- RD_STATUS returns the status view (42_host_interface.md R100). -/
def execRdStatus (s : State) : Host.Outcome State Fault Refusal := .next (returnData (statusWord s) s)

/-- RD_BASE returns BASE, never PTR (42_host_interface.md R101). -/
def execRdBase (s : State) : Host.Outcome State Fault Refusal := .next (returnData (baseRead s) s)

/-- RD_RESULT returns RESULT, current or stale (42_host_interface.md R102). -/
def execRdResult (s : State) : Host.Outcome State Fault Refusal := .next (returnData s.result s)

end Sys2Proof.Machine
end

