-- ==== Sys2Proof/Machine/Command.lean ====
section
/-! DEFINITION. The meanings of the CTRL commands (42_host_interface.md section 1). -/

namespace Sys2Proof.Machine

/-- NOP: no state changes, in every STATE; ARG_PRESENT is ignored (42_host_interface.md R93). -/
def execNop (_argPresent : Bool) (s : State) : Host.Outcome State Fault Refusal := .next s

/-- START: INIT in IDLE, DONE and ERROR; ignored in BUSY (42_host_interface.md R95, R96). -/
def execStart (s : State) : Host.Outcome State Fault Refusal := unlessBusy s init

/-- START_ABSENT: raises InvalidInput in IDLE, DONE and ERROR; ignored in BUSY (42_host_interface.md R97,
R96). -/
def execStartAbsent (s : State) : Host.Outcome State Fault Refusal := unlessBusy s raiseInvalidInput

/-- A reserved command word is ignored: no state changes (30_encoding.md R62; assumption 7). -/
def execReservedCtrl (_w : Word) (s : State) : Host.Outcome State Fault Refusal := .next s

end Sys2Proof.Machine
end

