-- ==== Sys2Proof/Machine/HostWrite.lean ====
section
/-! DEFINITION. The meanings of the register writes (42_host_interface.md sections 1 and 3). -/

namespace Sys2Proof.Machine

/-- WR_CTRL decodes its data word and performs the command within the same step (42_host_interface.md
R94, 30_encoding.md R57); the reserved check comes first (60_exceptions.md R119). -/
def execWrCtrl (data : Word) (s : State) : Host.Outcome State Fault Refusal :=
  match decodeCommand data with
  | .reserved w => execReservedCtrl w s
  | .nop a => execNop a s
  | .start => execStart s
  | .startAbsent => execStartAbsent s

/-- WR_STATUS is discarded (42_host_interface.md R104). -/
def execWrStatus (_data : Word) (s : State) : Host.Outcome State Fault Refusal := .next s

/-- WR_BASE, in every STATE (42_host_interface.md R103). -/
def execWrBase (data : Word) (s : State) : Host.Outcome State Fault Refusal := .next (writeBase data s)

/-- WR_RESULT is discarded (42_host_interface.md R104). -/
def execWrResult (_data : Word) (s : State) : Host.Outcome State Fault Refusal := .next s

end Sys2Proof.Machine
end

