-- ==== Sys2Proof/Machine/Dispatch.lean ====
section
/-! DEFINITION. The dispatch of an instruction to its meaning. -/

namespace Sys2Proof.Machine

/-- One meaning per row of spec/opcode_table.json. -/
def exec (i : Instr) (s : State) : Host.Outcome State Fault Refusal :=
  match i with
  | .nop a => Sys2Proof.Machine.execNop a s
  | .start => Sys2Proof.Machine.execStart s
  | .startAbsent => Sys2Proof.Machine.execStartAbsent s
  | .reservedCtrl w => Sys2Proof.Machine.execReservedCtrl w s
  | .absorb c => Sys2Proof.Machine.execAbsorb c s
  | .finalize => Sys2Proof.Machine.execFinalize s
  | .rdCtrl => Sys2Proof.Machine.execRdCtrl s
  | .rdStatus => Sys2Proof.Machine.execRdStatus s
  | .rdBase => Sys2Proof.Machine.execRdBase s
  | .rdResult => Sys2Proof.Machine.execRdResult s
  | .wrCtrl data => Sys2Proof.Machine.execWrCtrl data s
  | .wrStatus data => Sys2Proof.Machine.execWrStatus data s
  | .wrBase data => Sys2Proof.Machine.execWrBase data s
  | .wrResult data => Sys2Proof.Machine.execWrResult data s

end Sys2Proof.Machine
end

