-- ==== Sys2Proof/Machine/Turns.lean ====
section
/-! DEFINITION. One turn of the total order of atomic steps (20_memory.md R48): what each event does, what
happens where none is pending, and how an instruction is put where the next step takes it. -/

namespace Sys2Proof.Machine

open Sys2Proof.Config

/-- One event, as an atomic step. An engine turn where the engine has no step changes nothing
(40_djb2_hash_engine.md R65; assumption 5). -/
def turn (e : Event) (s : State) : Host.Outcome State Fault Refusal :=
  match e with
  | .engine =>
    match engineInstr s with
    | some i => exec i s
    | none => .next s
  | .host a =>
    match hostInstr s.platform a with
    | .ok i => exec i s
    | .error r => .refused r
  | .reset => .next (applyReset s)
  | .place a b => if a < s.platform.space then .next (placeByte a b s) else .fault .addressOutsideSpace

/-- No event is pending: the engine takes its step where it has one (70_reset_and_hazards.md R144, whose premise
over infinite behaviours is EngineFair of Fairness.lean; assumption 4); where it is stuck the machine stops by name
(20_memory.md R37); otherwise nothing happens and all state is kept (60_exceptions.md R128; assumptions 4
and 5). -/
def quietTurn (s : State) : Host.Outcome State Fault Refusal :=
  match engineInstr s with
  | some i => exec i s
  | none => if s.st = .busy then .fault .engineStuck else .next s

/-- Put a transaction first among the pending events. -/
def pendAccess (sel : Sel) (data : Word) (s : State) : State :=
  { s with events := .host (accessOf s.platform sel data) :: s.events }

/-- Put a byte where the engine reads next, and make that read the next step: STATE is BUSY, PTR is an
address of the space that may be read, and the engine has the first turn (assumption 16). -/
def pendByte (b : Byte) (s : State) : State :=
  let a := s.ptr.toNat % s.platform.space
  { s with
    platform := { s.platform with
      unreadable := s.platform.unreadable.filter fun r => !(decide (r.1 ≤ a) && decide (a ≤ r.2)) }
    st := .busy
    ptr := BitVec.ofNat 32 a
    mem := s.mem.write a b
    events := .engine :: s.events }

/-- Put the instruction of a table word where the next step takes it: a command word as the DATA of a
WR_CTRL, an input byte in memory at PTR, a transaction on the bus (assumption 16). -/
def pendTableWord (nbits w : Nat) (s : State) : State :=
  match tablePort nbits w with
  | some .ctrl => pendAccess 0b100#3 (BitVec.ofNat 32 w) s
  | some .byte => pendByte (BitVec.ofNat 8 w) s
  | some .hostTx => pendAccess (BitVec.ofNat 3 w) (BitVec.ofNat 32 (w / 256)) s
  | none => s

end Sys2Proof.Machine
end

