-- ==== Sys2Proof/Machine/Step.lean ====
section
/-! DEFINITION. The step of the machine: the oldest pending event, or the quiet turn. -/

namespace Sys2Proof.Machine

/-- One atomic step of the total order (00_scope.md R11, 20_memory.md R48). -/
def step (s : State) : Host.Outcome State Fault Refusal :=
  match s.events with
  | [] => quietTurn s
  | e :: es => turn e (setEvents es s)

/-- The state whose next step runs the instruction of a table word (assumption 16). -/
def State.withFetchWord (s : State) (nbits w : Nat) : State := pendTableWord nbits w s

end Sys2Proof.Machine
end

