-- ==== Sys2Proof/Machine/HostShell.lean ====
section
/-! DEFINITION. The host side of a full invocation: the notation of host programs (30_encoding.md R61) with
its interpreter, and the CLI contract (42_host_interface.md R106 to R109). It binds the host software, not
the block (assumption 18). -/

namespace Sys2Proof.Machine

open Sys2Proof.Config

/-- One line of a host program: the notation of 30_encoding.md R61, and the placing of one byte of the
argument, which that notation has no spelling for (42_host_interface.md R106 step 1; assumption 18). -/
inductive HostLine where
  /-- Place one byte in the input byte space. -/
  | place (a : Nat) (b : Byte)
  /-- `wr BASE, a` -/
  | wrBase (a : Word)
  /-- `wr CTRL, w` -/
  | wrCtrl (w : Word)
  /-- `start` -/
  | start
  /-- `start_absent` -/
  | startAbsent
  /-- `nop` -/
  | nop
  /-- `rd STATUS -> r` -/
  | rdStatus
  /-- `rd RESULT -> r` -/
  | rdResult
  /-- `rd BASE -> r` -/
  | rdBase
  /-- `wait`: repeat `rd STATUS -> r` until `r[1:1] = 1` -/
  | wait
  /-- `hash a -> r`: `wr BASE, a`; `start`; `wait`; `rd RESULT -> r` -/
  | hash (a : Word)
deriving DecidableEq, Repr

/-- A line without its grouped pseudo: `hash` is its four lines (30_encoding.md R61). -/
def hostExpand : HostLine → List HostLine
  | .hash a => [.wrBase a, .start, .wait, .rdResult]
  | .place a b => [.place a b]
  | .wrBase a => [.wrBase a]
  | .wrCtrl w => [.wrCtrl w]
  | .start => [.start]
  | .startAbsent => [.startAbsent]
  | .nop => [.nop]
  | .rdStatus => [.rdStatus]
  | .rdResult => [.rdResult]
  | .rdBase => [.rdBase]
  | .wait => [.wait]

/-- The atomic step an expanded line asks for: the transaction `(SEL, DATA)` of 30_encoding.md R61, or the
placing of a byte; of `hash`, its first. -/
def hostEvent (p : Platform) : HostLine → Event
  | .place a b => .place a b
  | .wrBase a => .host (accessOf p 0b110#3 a)
  | .wrCtrl w => .host (accessOf p 0b100#3 w)
  | .start => .host (accessOf p 0b100#3 0x00000003#32)
  | .startAbsent => .host (accessOf p 0b100#3 0x00000001#32)
  | .nop => .host (accessOf p 0b100#3 0x00000000#32)
  | .rdStatus => .host (accessOf p 0b001#3 0)
  | .rdResult => .host (accessOf p 0b011#3 0)
  | .rdBase => .host (accessOf p 0b010#3 0)
  | .wait => .host (accessOf p 0b001#3 0)
  | .hash a => .host (accessOf p 0b110#3 a)

/-- Whether a line names the value it reads. -/
def hostReads : HostLine → Bool
  | .rdStatus => true
  | .rdResult => true
  | .rdBase => true
  | .place _ _ => false
  | .wrBase _ => false
  | .wrCtrl _ => false
  | .start => false
  | .startAbsent => false
  | .nop => false
  | .wait => false
  | .hash _ => false

/-- A host program running on a machine: the expanded lines still to do and the values read so far, in
order. -/
structure Session where
  machine : State
  prog : List HostLine
  reads : List Word
deriving DecidableEq, Repr

/-- A host program as it is written, before its first line. -/
def sessionOf (s : State) (prog : List HostLine) : Session where
  machine := s
  prog := prog.flatMap hostExpand
  reads := []

/-- The host's turn in a session: the step of the next line. `wait` stays until the status it reads shows
DONE or ERROR (30_encoding.md R61). -/
def hostTurn (h : Session) : Host.Outcome Session Fault Refusal :=
  match h.prog with
  | [] => .next h
  | l :: rest =>
    match turn (hostEvent h.machine.platform l) h.machine with
    | .next t =>
      .next
        { machine := t
          prog := if l = .wait ∧ statusFinished t.rdData = false then l :: rest else rest
          reads := if hostReads l then h.reads ++ [t.rdData] else h.reads }
    | .fault r => .fault r
    | .refused r => .refused r

/-- The engine's turn in a session. -/
def engineTurn (h : Session) : Host.Outcome Session Fault Refusal :=
  match turn .engine h.machine with
  | .next t => .next { h with machine := t }
  | .fault r => .fault r
  | .refused r => .refused r

/-- One turn of a session: `true` is the host's, `false` the engine's. -/
def sessionTurn (t : Bool) (h : Session) : Host.Outcome Session Fault Refusal :=
  if t then hostTurn h else engineTurn h

/-- A session under a schedule: `true` is the host's turn, `false` the engine's. Every interleaving of
host transactions and engine steps is some schedule (00_scope.md R11, 42_host_interface.md R105). -/
def sessionRun : List Bool → Session → Host.Outcome Session Fault Refusal
  | [], h => .next h
  | t :: ts, h =>
    match sessionTurn t h with
    | .next h' => sessionRun ts h'
    | .fault r => .fault r
    | .refused r => .refused r

/-! ### The CLI contract -/

/-- A lower-case hexadecimal digit. -/
def hexDigit (n : Nat) : Char :=
  ['0', '1', '2', '3', '4', '5', '6', '7', '8', '9', 'a', 'b', 'c', 'd', 'e', 'f'].getD n '0'

/-- A word as eight lower-case hexadecimal digits, zero-padded (42_host_interface.md R107). -/
def hex8 (w : Word) : List Char :=
  [7, 6, 5, 4, 3, 2, 1, 0].map fun k => hexDigit (w.extractLsb' (4 * k) 4).toNat

/-- The line `djb2_hash: 0x%08x` and its newline (42_host_interface.md R107). -/
def outputLine (r : Word) : List Char :=
  ['d', 'j', 'b', '2', '_', 'h', 'a', 's', 'h', ':', ' ', '0', 'x'] ++ hex8 r ++ ['\n']

/-- What the host program leaves behind: its exit status and its two output streams. -/
structure CliOutcome where
  exit : Nat
  stdout : List Char
  stderr : List Char
deriving DecidableEq, Repr

/-- Success: exit status 0 and the one line (42_host_interface.md R107, R108). That standard error is empty is
the model's choice: no rule says what it holds (DESIGN CHOICE, assumption 18). -/
def cliSuccess (r : Word) : CliOutcome := { exit := 0, stdout := outputLine r, stderr := [] }

/-- A missing argument: a status that is not zero and a message, both otherwise free values
(42_host_interface.md R109, 93_implementation_defined.md U13). `n` numbers the invocation. That standard output
is empty is the model's choice: no rule says what it holds (DESIGN CHOICE, assumption 18). -/
def cliMissingArgument (n : Nat) : CliOutcome where
  exit := missingArgumentExitPred n + 1
  stdout := []
  stderr := missingArgumentMessage n

/-- Where the bytes of an argument go: they and one 0x00 at increasing addresses from `a`, mod `2^ADDR_W`
(42_host_interface.md R106 step 1). -/
def argumentCells (p : Platform) (a : Nat) (s : List Byte) : List Host.Cell :=
  (s ++ [0x00]).zipIdx.map fun (bi : Byte × Nat) => ((a + bi.2) % p.space, bi.1)

/-- Placing an argument, as events (42_host_interface.md R106 step 1). -/
def placeArgument (p : Platform) (a : Nat) (s : List Byte) : List Event :=
  (argumentCells p a s).map fun c => .place c.1 c.2

/-- The host program of an invocation on the string `s`, placed at the host's choice of address `a`: its
bytes and the terminator are placed, and then `hash a` (42_host_interface.md R106 steps 1 to 5); of a missing
argument it is `start_absent` (R109; assumption 18). -/
def cliProgram (p : Platform) (argument : Option (List Byte)) (a : Word) : List HostLine :=
  match argument with
  | some s => ((argumentCells p a.toNat s).map fun c => HostLine.place c.1 c.2) ++ [.hash a]
  | none => [.startAbsent]

/-- The session of an invocation before its first turn. -/
def invocation (s : State) (argument : Option (List Byte)) (a : Word) : Session :=
  sessionOf s (cliProgram s.platform argument a)

/-- What the host program leaves behind after its session: the RESULT read last is printed
(42_host_interface.md R107). The missing argument is answered as R109 says. -/
def cliOutcome (argument : Option (List Byte)) (n : Nat) (h : Session) : Option CliOutcome :=
  match argument with
  | some _ => h.reads.getLast?.map cliSuccess
  | none => some (cliMissingArgument n)

end Sys2Proof.Machine
end

