-- ==== Sys2Proof/Machine/Fairness.lean ====
section
/-! DEFINITION. The fairness premise of termination claims (70_reset_and_hazards.md R144) over infinite
behaviours: what a behaviour is, of the machine and of a host program on it, and when it is fair. No step of
the machine uses this file. -/

namespace Sys2Proof.Machine

/-- Weak fairness: what is enabled from some point on is eventually taken (70_reset_and_hazards.md R144). -/
def WeaklyFair (enabled taken : Nat → Prop) : Prop :=
  ∀ k, (∀ m, k ≤ m → enabled m) → ∃ m, k ≤ m ∧ taken m

/-- An infinite behaviour of the machine: one event after another, each the atomic step from one state to the
next (00_scope.md R11, 20_memory.md R48). Host accesses may be any, a polling without end among them. -/
def Behaviour (es : Nat → Event) (u : Nat → State) : Prop :=
  ∀ k, turn (es k) (u k) = .next (u (k + 1))

/-- The fairness premise of 70_reset_and_hazards.md R144: if STATE = BUSY and READABLE(PTR) hold from some
point on, the engine eventually takes its step. -/
def EngineFair (es : Nat → Event) (u : Nat → State) : Prop :=
  WeaklyFair (fun k => engineEnabled (u k) = true) fun k => es k = .engine

/-- An infinite behaviour of a host program on the machine: at each point the host's turn (`true`) or the
engine's (`false`). `wait` may poll without bound (30_encoding.md R61). -/
def SessionBehaviour (ts : Nat → Bool) (h : Nat → Session) : Prop :=
  ∀ k, sessionTurn (ts k) (h k) = .next (h (k + 1))

/-- The same premise for a host program's behaviour (70_reset_and_hazards.md R144). -/
def SessionEngineFair (ts : Nat → Bool) (h : Nat → Session) : Prop :=
  WeaklyFair (fun k => engineEnabled (h k).machine = true) fun k => ts k = false

/-- The host goes on with its program: while a line is left it eventually takes a turn. No rule of the spec
says so of the host; a claim that a host program ends must assume it (DESIGN CHOICE, assumption 22). -/
def SessionHostFair (ts : Nat → Bool) (h : Nat → Session) : Prop :=
  WeaklyFair (fun k => (h k).prog ≠ []) fun k => ts k = true

end Sys2Proof.Machine
end

