-- ==== Sys2Proof/Machine/Instances.lean ====
section
/-! DEFINITION. Several instances of the block on one platform (00_scope.md R6, 60_exceptions.md R126): a
list of `N_INST` states, each with its own registers, window and events, over one input byte space. -/

namespace Sys2Proof.Machine

/-- The instances of a platform, by number. Its length is N_INST. -/
abbrev Instances := List State

/-- The register windows of two instances do not overlap. -/
def windowsApart (s t : State) : Bool :=
  decide (s.platform.blockBase + windowSize ≤ t.platform.blockBase) ||
    decide (t.platform.blockBase + windowSize ≤ s.platform.blockBase)

/-- The instances of one platform: at least one, with windows apart, over one input byte space (the same
bytes, width and readable addresses). -/
def Instances.wf (l : Instances) : Prop :=
  l ≠ [] ∧ l.Pairwise fun s t =>
    windowsApart s t = true ∧ s.mem = t.mem ∧ s.platform.addrWidthPred = t.platform.addrWidthPred ∧
      s.platform.unreadable = t.platform.unreadable

/-- One atomic step of instance `n`. A byte placed in the input byte space is placed for every instance,
since they share it; nothing else reaches another instance (60_exceptions.md R126). -/
def stepInstance (n : Nat) (l : Instances) : Host.Outcome Instances Fault Refusal :=
  match l[n]? with
  | none => .refused .noSuchInstance
  | some s =>
    match step s with
    | .next t =>
      match s.events.head? with
      | some (.place a b) => .next ((l.map (placeByte a b)).set n t)
      | _ => .next (l.set n t)
    | .fault r => .fault r
    | .refused r => .refused r

end Sys2Proof.Machine
end

