-- ==== Sys2Proof/Safety.lean ====
section
/-! DEFINITION. What a good state is, in the terms the statements use. -/

namespace Sys2Proof.Machine

/-- The standing invariant of one block. -/
structure State.Inv (s : State) : Prop where
  /-- The memory is in its canonical form. -/
  memory : s.mem.wf = true
  /-- Every listed byte lies in the input byte space (20_memory.md R35). -/
  inSpace : ∀ c ∈ s.mem, c.1 < s.platform.space
  /-- PTR is an ADDR_W-bit register (10_state.md R16). -/
  ptr : s.ptr.toNat < s.platform.space
  /-- The bits of BASE above ADDR_W are zero (10_state.md R19). -/
  base : s.base.toNat < s.platform.space
  /-- The run's start is a value BASE had. -/
  runStart : s.runStart.toNat < s.platform.space
  /-- The addresses recorded as changed are addresses of the input byte space (20_memory.md R35, R39). -/
  changed : ∀ a ∈ s.changed, a < s.platform.space
  /-- ERR_CODE is 0x01 exactly when STATE = ERROR, and else 0x00 (10_state.md R18, 42_host_interface.md
  R100). -/
  errCode : s.errCode = if s.st = .error then 0x01 else 0x00

/-- The invariant of a run, in the terms of the bytes it has absorbed (10_state.md R27, R28): `consumed` is
`s[0..k-1]` and its length is `k`. It holds under any change of the input by the host (20_memory.md R39). -/
structure State.RunInv (s : State) : Prop where
  /-- PTR is `b0 + k` (10_state.md R27). -/
  ptr : s.st = .busy → s.ptr = wrapAddress s.platform (s.runStart.toNat + s.consumed.length)
  /-- LEN is `k mod 256` (10_state.md R27). -/
  len : s.st = .busy → s.len.toNat = s.consumed.length % 256
  /-- ACC is the recurrence over the bytes absorbed (10_state.md R27). -/
  acc : s.st = .busy → s.acc = djb2 32 s.consumed
  /-- No byte absorbed is zero (10_state.md R27). -/
  nonzero : s.st = .busy → ∀ b ∈ s.consumed, b ≠ 0
  /-- The bytes absorbed are the memory's from `b0` on, where none of those read has been changed since the
  START; a change of any other byte does not matter (20_memory.md R39, R46). -/
  fromMemory : s.st = .busy →
    (∀ j < s.consumed.length, (s.runStart.toNat + j) % s.platform.space ∉ s.changed) →
    s.consumed = inputBytes s.platform s.mem s.runStart.toNat s.consumed.length
  /-- In DONE, RESULT is COMPUTE of the bytes the last run absorbed, its input having kept still where it was
  read (10_state.md R28). -/
  result : s.st = .done → dutyBroken s = false → s.result = compute s.consumed

/-- The next step is the engine's own turn: no event is pending, or an engine turn is first. -/
abbrev State.EnginesTurn (s : State) : Prop := s.events = [] ∨ s.events.head? = some .engine

/-- `n` steps of the machine, stopping at the first that is no next state: `Host.Core.run` of the core. -/
def steps : Nat → State → Host.Outcome State Fault Refusal
  | 0, s => .next s
  | n + 1, s =>
    match step s with
    | .next t => steps n t
    | .fault r => .fault r
    | .refused r => .refused r

/-- The terminated input at an address: `n` bytes that are not zero, and then the terminator (00_scope.md
section 6). -/
abbrev Terminated (s : State) (a n : Nat) : Prop :=
  (∀ b ∈ inputBytes s.platform s.mem a n, b ≠ 0) ∧ s.mem.read ((a + n) % s.platform.space) = 0

/-- Every address from `a` up to `a + n` may be read (70_reset_and_hazards.md R135). -/
abbrev ReadableInput (s : State) (a n : Nat) : Prop :=
  ∀ k ≤ n, readable s.platform ((a + k) % s.platform.space) = true

end Sys2Proof.Machine
end

