-- ==== Sys2Proof/Certificates/Slice0/Obligations.lean ====
section
/-! DEFINITION. The statements for the provers. Each docstring names the rule of spec/ it comes from. -/

open Sys2Proof
open Sys2Proof.Machine
open Sys2Proof.Config

/-! ### Encoding -/

/-- Decoding the encoding of a well-formed instruction gives it back, on its own port (30_encoding.md R53
to R59, R63). The formats' layout in bytes is the model's choice (assumption 15). -/
def Obligations.DecodeAfterEncodeGivesInstruction : Prop :=
  ∀ i : Instr, i.wellFormed = true → decode i.port (encode i) = .ok i

/-- Whatever bytes a port decodes are a well-formed instruction of that port, and they are its encoding;
of a read, whose DATA lines carry nothing from the host, the selector is (30_encoding.md R55 to R59). That a
transaction is its selector in the first byte and DATA in four more, and that those of a read are ignored, is the
model's choice (assumption 15). -/
def Obligations.EncodeAfterDecodeGivesBytes : Prop :=
  ∀ (p : Port) (bs : List Byte) (i : Instr), decode p bs = .ok i →
    i.wellFormed = true ∧ i.port = p ∧
      (encode i = bs ∨
        ((i = .rdCtrl ∨ i = .rdStatus ∨ i = .rdBase ∨ i = .rdResult) ∧ (encode i).head? = bs.head?))

/-- The command table of 30_encoding.md R57, in bits: a bit of 31..2 makes the word reserved; else bit 0
clear is a NOP, whatever bit 1 says, and bit 0 set is START or START_ABSENT by bit 1. -/
def Obligations.CommandWordsDecodeByTheTable : Prop :=
  ∀ w : Word,
    ((∃ k, 2 ≤ k ∧ k < 32 ∧ w.getLsbD k = true) → decodeCtrl w = .reservedCtrl w) ∧
    (w.toNat = 0 → decodeCtrl w = .nop false) ∧
    (w.toNat = 2 → decodeCtrl w = .nop true) ∧
    (w.toNat = 3 → decodeCtrl w = .start) ∧
    (w.toNat = 1 → decodeCtrl w = .startAbsent)

/-- The byte table of 30_encoding.md R58, and the engine's step (40_djb2_hash_engine.md R65): it is enabled
exactly while STATE = BUSY and PTR may be read, and then runs, in one step, what the byte at PTR decodes to. -/
def Obligations.InputBytesDecodeOnlyWhileBusy : Prop :=
  ∀ s : State,
    (s.st ≠ .busy → engineInstr s = none) ∧
    (readable s.platform s.ptr.toNat = false → engineInstr s = none) ∧
    (s.st = .busy → readable s.platform s.ptr.toNat = true →
      ((s.mem.read s.ptr.toNat).toNat = 0 →
        engineInstr s = some .finalize ∧ turn .engine s = exec .finalize s) ∧
      ((s.mem.read s.ptr.toNat).toNat ≠ 0 →
        engineInstr s = some (.absorb (s.mem.read s.ptr.toNat)) ∧
        turn .engine s = exec (.absorb (s.mem.read s.ptr.toNat)) s))

/-- The transaction table of 30_encoding.md R55 at the offsets of 20_memory.md R41, for every BLOCK_BASE. -/
def Obligations.WindowOffsetsSelectTransactions : Prop :=
  ∀ (p : Platform) (v : Word),
    hostInstr p ⟨false, p.blockBase + 0x00, 4, v⟩ = .ok .rdCtrl ∧
    hostInstr p ⟨false, p.blockBase + 0x04, 4, v⟩ = .ok .rdStatus ∧
    hostInstr p ⟨false, p.blockBase + 0x08, 4, v⟩ = .ok .rdBase ∧
    hostInstr p ⟨false, p.blockBase + 0x0C, 4, v⟩ = .ok .rdResult ∧
    hostInstr p ⟨true, p.blockBase + 0x00, 4, v⟩ = .ok (.wrCtrl v) ∧
    hostInstr p ⟨true, p.blockBase + 0x04, 4, v⟩ = .ok (.wrStatus v) ∧
    hostInstr p ⟨true, p.blockBase + 0x08, 4, v⟩ = .ok (.wrBase v) ∧
    hostInstr p ⟨true, p.blockBase + 0x0C, 4, v⟩ = .ok (.wrResult v)

/-- A few words written out from the spec's encodings (30_encoding.md R63) decode to the instructions they stand
for. The order of their bytes, and a transaction's selector in a byte before its DATA, are the model's choice
(assumption 15). -/
def Obligations.SpecWordsDecodeAsWritten : Prop :=
  decode .ctrl [0x03, 0x00, 0x00, 0x00] = .ok .start ∧
  decode .ctrl [0x01, 0x00, 0x00, 0x00] = .ok .startAbsent ∧
  decode .ctrl [0x02, 0x00, 0x00, 0x00] = .ok (.nop true) ∧
  decode .ctrl [0x03, 0x00, 0x00, 0x80] = .ok (.reservedCtrl 0x80000003) ∧
  decode .byte [0x00] = .ok .finalize ∧
  decode .byte [0x61] = .ok (.absorb 0x61) ∧
  decode .hostTx [0b001, 0, 0, 0, 0] = .ok .rdStatus ∧
  decode .hostTx [0b110, 0xF0, 0x56, 0x34, 0x12] = .ok (.wrBase 0x123456F0)

/-! ### The step and the decoded instruction -/

/-- A step runs the decoded instruction. Where the engine has its turn, or no event is pending, and it has
a step, the byte at PTR is decoded and run; where the host makes an aligned 32-bit access in the window,
the transaction at its offset is. Around `exec` a step takes the event and does nothing else. That the
engine steps where no event is pending is the model's choice (assumption 4). -/
def Obligations.StepRunsDecodedInstruction : Prop :=
  ∀ s : State,
    (∀ es, s.events = .engine :: es → s.st = .busy → readable s.platform s.ptr.toNat = true →
      step s = exec (decodeByte (s.mem.read s.ptr.toNat)) (setEvents es s)) ∧
    (s.events = [] → s.st = .busy → readable s.platform s.ptr.toNat = true →
      step s = exec (decodeByte (s.mem.read s.ptr.toNat)) s) ∧
    (∀ (w : Bool) (off : Nat) (v : Word) (es : List Event), off < 16 → off % 4 = 0 →
      s.events = .host ⟨w, s.platform.blockBase + off, 4, v⟩ :: es →
      step s = exec (decodeHostTx (selector w off) v) (setEvents es s))

/-- A command word put where the step takes its next instruction is run as the command it decodes to,
whatever the state: WR_CTRL transports it (42_host_interface.md R94). Where it is put is the model's choice
(assumption 16). -/
def Obligations.StepRunsTransportedCommand : Prop :=
  ∀ (s : State) (w : Word), step (s.withFetchWord 32 w.toNat) = exec (decodeCtrl w) s

/-- A step stops only where the model's log says so (assumptions 5, 8 and 12): a host access that is no
register transaction, a byte placed outside the input byte space, an engine stuck with no event pending. -/
def Obligations.StepStopsOnlyOutsideTheBlock : Prop :=
  ∀ s : State,
    (∀ r, step s = .refused r → ∃ a es, s.events = .host a :: es ∧
      ((r = .accessNotWord ∧ a.size ≠ 4) ∨
       (r = .accessOutsideWindow ∧ (a.addr < s.platform.blockBase ∨ s.platform.blockBase + 16 ≤ a.addr)) ∨
       (r = .accessMisaligned ∧ (a.addr - s.platform.blockBase) % 4 ≠ 0))) ∧
    (∀ f, step s = .fault f →
      (f = .engineStuck ∧ s.events = [] ∧ s.st = .busy ∧ readable s.platform s.ptr.toNat = false) ∨
      (f = .addressOutsideSpace ∧ ∃ a b es, s.events = .place a b :: es ∧ s.platform.space ≤ a))

/-- An access that 20_memory.md R42 rules out is refused, and no other is (93_implementation_defined.md
U4; assumption 8). -/
def Obligations.AccessIsRefusedExactlyOutsideTheWindowForm : Prop :=
  ∀ (s : State) (a : Access) (es : List Event), s.events = .host a :: es →
    ((∃ r, step s = .refused r) ↔
      ¬(a.size = 4 ∧ ∃ k < 4, a.addr = s.platform.blockBase + 4 * k))

/-! ### Pure functions -/

/-- DJB2_STEP is `h * 33 + c` on unbounded integers, reduced, in any width, and a shift and two additions
compute it (40_djb2_hash_engine.md R66). -/
def Obligations.Djb2StepIsModularAndShiftAdd : Prop :=
  ∀ (w : Nat) (h : BitVec w) (c : Byte),
    (djb2Step h c).toNat = (h.toNat * 33 + c.toNat) % 2 ^ w ∧
    djb2Step h c = (h <<< 5) + h + c.setWidth w

/-- PACK is the byte count's low 8 bits above the hash's low 24, of disjoint set bits
(41_hash_length_packer.md R80, R81). -/
def Obligations.PackIsLengthByteAboveHash : Prop :=
  ∀ (w : Nat) (h : BitVec w) (n : Nat),
    (lengthShifted n).extractLsb' 24 8 = BitVec.ofNat 8 n ∧
    (lengthShifted n).extractLsb' 0 24 = 0 ∧
    maskedHash h &&& lengthShifted n = 0 ∧
    pack h n = BitVec.ofNat 8 n ++ h.setWidth 24

/-- The accumulator's width above 23 bits and the counter's above 7 do not show in the packed value
(41_hash_length_packer.md R86, R87). -/
def Obligations.PackedResultIsIndependentOfWidths : Prop :=
  ∀ w : Nat, 24 ≤ w →
    (∀ (h : BitVec w) (c : Byte), (djb2Step h c).setWidth 24 = djb2Step (h.setWidth 24) c) ∧
    (∀ s : List Byte, (djb2 w s).setWidth 24 = djb2 24 s) ∧
    (∀ (l n : Nat), 8 ≤ l → (n % 2 ^ l) &&& 0xFF = n &&& 0xFF) ∧
    (∀ (l : Nat) (s : List Byte), 8 ≤ l → pack (djb2 w s) (s.length % 2 ^ l) = compute s)

/-! ### Commands -/

/-- NOP changes nothing, in every STATE, with ARG_PRESENT either way (42_host_interface.md R93). -/
def Obligations.NopChangesNothing : Prop :=
  ∀ (s : State) (a : Bool),
    exec (.nop a) s = .next s ∧ exec (.wrCtrl 0x00000000) s = .next s ∧ exec (.wrCtrl 0x00000002) s = .next s

/-- START in IDLE, DONE and ERROR is INIT, and is ignored in BUSY (42_host_interface.md R95,
40_djb2_hash_engine.md R67). Besides the registers that INIT writes only the model's own records of the run are
set, its start, the changed bytes and the bytes absorbed: those clauses are the model's and no rule's
(assumption 10). -/
def Obligations.StartInitialisesOrIsIgnored : Prop :=
  ∀ (s : State) (i : Instr), i = .start ∨ i = .wrCtrl 0x00000003 →
    (s.st ≠ .busy → ∃ t, exec i s = .next t ∧
      t.acc = 0x00001505 ∧ t.len = 0 ∧ t.ptr.toNat = s.base.toNat % 2 ^ s.platform.addrW ∧
      t.errCode = 0x00 ∧ t.st = .busy ∧ statusWord t = 0x00000001 ∧
      t.runStart = t.ptr ∧ t.changed = [] ∧ t.consumed = [] ∧
      (∀ a, t.mem.read a = s.mem.read a) ∧
      t = { s with acc := t.acc, len := t.len, ptr := t.ptr, errCode := t.errCode, st := t.st,
                   runStart := t.runStart, changed := t.changed, consumed := t.consumed }) ∧
    (s.st = .busy → exec i s = .next s)

/-- START_ABSENT in IDLE, DONE and ERROR raises InvalidInput and changes nothing else, and is ignored in
BUSY (42_host_interface.md R97, 60_exceptions.md R116). -/
def Obligations.StartAbsentRaisesInvalidInputOrIsIgnored : Prop :=
  ∀ (s : State) (i : Instr), i = .startAbsent ∨ i = .wrCtrl 0x00000001 →
    (s.st ≠ .busy → ∃ t, exec i s = .next t ∧
      t.errCode = 0x01 ∧ t.st = .error ∧ statusWord t = 0x00000103 ∧
      (∀ a, t.mem.read a = s.mem.read a) ∧
      t = { s with errCode := t.errCode, st := t.st }) ∧
    (s.st = .busy → exec i s = .next s)

/-- Both start commands written while BUSY change no state (42_host_interface.md R96). -/
def Obligations.StartWhileBusyIsLost : Prop :=
  ∀ s : State, s.st = .busy →
    exec (.wrCtrl 0x00000003) s = .next s ∧ exec (.wrCtrl 0x00000001) s = .next s

/-- A reserved command word changes no state, in every STATE (30_encoding.md R62, R64; assumption 7: the
model follows R62 where 93_implementation_defined.md U1 would let a model refuse). -/
def Obligations.ReservedCommandWordIsIgnored : Prop :=
  ∀ (s : State) (w : Word), exec (.reservedCtrl w) s = .next s ∧
    (4 ≤ w.toNat → exec (.wrCtrl w) s = .next s)

/-- WR_CTRL completes for every data word, in every STATE: it is the decoded command, and that is INIT,
InvalidInput, or nothing (42_host_interface.md R94, 60_exceptions.md R119). -/
def Obligations.WrCtrlPerformsDecodedCommand : Prop :=
  ∀ (s : State) (w : Word),
    exec (.wrCtrl w) s = exec (decodeCtrl w) s ∧
    exec (.wrCtrl w) s =
      .next (if s.st = .busy then s
        else if w.toNat = 3 then init s
        else if w.toNat = 1 then raiseInvalidInput s
        else s)

/-! ### Engine steps -/

/-- ABSORB while BUSY (40_djb2_hash_engine.md R68, R69): the recurrence, the count and the pointer, each
modulo its width, and nothing else but the model's own record of the byte, which is no rule's (assumption
10). -/
def Obligations.AbsorbUpdatesHashLengthAndPointer : Prop :=
  ∀ (s : State) (c : Byte), s.st = .busy → ∃ t, exec (.absorb c) s = .next t ∧
    t.acc.toNat = (s.acc.toNat * 33 + c.toNat) % 2 ^ 32 ∧
    t.len.toNat = (s.len.toNat + 1) % 2 ^ 8 ∧
    t.ptr.toNat = (s.ptr.toNat + 1) % 2 ^ s.platform.addrW ∧
    (s.ptr.toNat = 2 ^ s.platform.addrW - 1 → t.ptr = 0) ∧
    (∀ a, t.mem.read a = s.mem.read a) ∧
    t.consumed = s.consumed ++ [c] ∧
    t = { s with acc := t.acc, len := t.len, ptr := t.ptr, consumed := t.consumed }

/-- FINALIZE while BUSY (40_djb2_hash_engine.md R70, 41_hash_length_packer.md R82): DONE and RESULT in one
step, and nothing else. Where a byte of the input was changed during the run, RESULT is the free value
(20_memory.md R39, 93_implementation_defined.md U3; assumptions 10 and 11), whatever it is. -/
def Obligations.FinalizePacksResultAndIsDone : Prop :=
  ∀ s : State, s.st = .busy → ∃ t, exec .finalize s = .next t ∧
    t.st = .done ∧
    (dutyBroken s = false →
      t.result = s.len ++ s.acc.extractLsb' 0 24 ∧ t.freeCount = s.freeCount) ∧
    (dutyBroken s = true →
      t.result = unspecifiedResult s.platform.blockBase s.freeCount ∧ t.freeCount = s.freeCount + 1) ∧
    (∀ a, t.mem.read a = s.mem.read a) ∧
    t = { s with result := t.result, st := t.st, freeCount := t.freeCount }

/-- Outside BUSY the engine has no step (40_djb2_hash_engine.md R65): its turn, and a step with no event
pending, change nothing but the event taken, and its instructions are refused by name (assumptions 5
and 6). -/
def Obligations.EngineHasNoStepOutsideBusy : Prop :=
  ∀ s : State, s.st ≠ .busy →
    (∀ es, s.events = .engine :: es → step s = .next (setEvents es s)) ∧
    (s.events = [] → step s = .next s) ∧
    (∀ c, exec (.absorb c) s = .refused .engineNotBusy) ∧
    exec .finalize s = .refused .engineNotBusy

/-- At an unreadable address the engine has no step and no read is performed (20_memory.md R37): the
engine's turn changes nothing, a status read still returns BUSY, and with no event pending the machine is
stuck by name (assumption 5). -/
def Obligations.UnreadableAddressStopsTheEngine : Prop :=
  ∀ s : State, s.st = .busy → readable s.platform s.ptr.toNat = false →
    (∀ es, s.events = .engine :: es → step s = .next (setEvents es s)) ∧
    (s.events = [] → step s = .fault .engineStuck) ∧
    (s.errCode = 0 → exec .rdStatus s = .next { s with rdData := 0x00000001 })

/-- The engine reads memory only at PTR: with no event pending, a memory that agrees there makes the same
step (20_memory.md R46, 40_djb2_hash_engine.md R65). The schedule is the model's choice (assumption 4). -/
def Obligations.EngineReadsOnlyAtPtr : Prop :=
  ∀ (s t : State) (m : Memory), s.events = [] → step s = .next t →
    m.read s.ptr.toNat = s.mem.read s.ptr.toNat →
    step { s with mem := m } = .next { t with mem := m }

/-! ### Register transactions -/

/-- RD_CTRL returns zero and RD_RESULT returns RESULT, in every STATE and without side effect
(42_host_interface.md R98, R99, R102). -/
def Obligations.CtrlReadsZeroAndResultReadsBack : Prop :=
  ∀ s : State,
    exec .rdCtrl s = .next { s with rdData := 0x00000000 } ∧
    exec .rdResult s = .next { s with rdData := s.result }

/-- RD_STATUS returns STATE in bits 1:0, ERR_CODE in bits 15:8 and zeros, without side effect, and in a
good state only the four values of 42_host_interface.md R100 (10_state.md R22). -/
def Obligations.StatusReadShowsStateAndErrorCode : Prop :=
  ∀ s : State, ∃ t, exec .rdStatus s = .next t ∧ t = { s with rdData := t.rdData } ∧
    (t.rdData.extractLsb' 0 2).toNat =
      (match s.st with | .idle => 0 | .busy => 1 | .done => 2 | .error => 3) ∧
    t.rdData.extractLsb' 2 6 = 0 ∧ t.rdData.extractLsb' 8 8 = s.errCode ∧
    t.rdData.extractLsb' 16 16 = 0 ∧
    (s.Inv → t.rdData =
      (match s.st with
        | .idle => 0x00000000 | .busy => 0x00000001 | .done => 0x00000002 | .error => 0x00000103))

/-- RD_BASE returns the low ADDR_W bits of BASE, whatever PTR is, without side effect
(42_host_interface.md R101). -/
def Obligations.BaseReadReturnsAddressBits : Prop :=
  ∀ s : State, ∃ t, exec .rdBase s = .next t ∧ t = { s with rdData := t.rdData } ∧
    t.rdData.toNat = s.base.toNat % 2 ^ s.platform.addrW

/-- WR_BASE keeps the low ADDR_W bits of DATA, in every STATE, and nothing else changes, PTR among it; a
read then returns them (42_host_interface.md R103, 10_state.md R19). -/
def Obligations.BaseWriteKeepsAddressBitsAndReadsBack : Prop :=
  ∀ (s : State) (v : Word), ∃ t, exec (.wrBase v) s = .next t ∧
    t.base.toNat = v.toNat % 2 ^ s.platform.addrW ∧ t = { s with base := t.base } ∧
    (∀ a, t.mem.read a = s.mem.read a) ∧
    exec .rdBase t = .next { t with rdData := t.base }

/-- WR_STATUS and WR_RESULT are discarded (42_host_interface.md R104). -/
def Obligations.WritesToReadOnlyRegistersAreDiscarded : Prop :=
  ∀ (s : State) (v : Word), exec (.wrStatus v) s = .next s ∧ exec (.wrResult v) s = .next s

/-- No host transaction stops, whatever the state of the engine, and none touches the run's hidden
registers but an accepted START (42_host_interface.md R98, R105). -/
def Obligations.HostTransactionsAlwaysComplete : Prop :=
  ∀ (i : Instr) (s : State), i.port = .hostTx → ∃ t, exec i s = .next t ∧
    t.result = s.result ∧ (∀ a, t.mem.read a = s.mem.read a) ∧
    (s.st = .busy → t.st = .busy ∧ t.acc = s.acc ∧ t.len = s.len ∧ t.ptr = s.ptr ∧ t.errCode = s.errCode)

/-- A host transaction and an ABSORB of a run in progress may be taken in either order: the outcome is one
state, the value read included (20_memory.md R45, R48, 42_host_interface.md R105). -/
def Obligations.HostTransactionsCommuteWithAbsorb : Prop :=
  ∀ (i : Instr) (c : Byte) (s : State), s.st = .busy → i.port = .hostTx →
    ∃ t u v, exec i s = .next t ∧ exec (.absorb c) t = .next v ∧
      exec (.absorb c) s = .next u ∧ exec i u = .next v

/-- The byte view of the window: byte `BLOCK_BASE + off + j` is bits `[8j+7:8j]` of what a read at `off`
returns (20_memory.md R43). -/
def Obligations.WindowBytesAreLittleEndianLanes : Prop :=
  ∀ (s : State) (off j : Nat), off < 16 → off % 4 = 0 → j < 4 →
    ∃ t, exec (decodeHostTx (selector false off) 0) s = .next t ∧
      windowByte s (s.platform.blockBase + off + j) = some (t.rdData.extractLsb' (8 * j) 8)

/-! ### Who writes what, over every step -/

/-- No instruction writes the input byte space, and no step does but one that places a byte from outside
the block (20_memory.md R38). -/
def Obligations.BlockNeverWritesInput : Prop :=
  (∀ (i : Instr) (s t : State), exec i s = .next t → t.mem = s.mem) ∧
  (∀ s t : State, step s = .next t → (∀ a b, s.events.head? ≠ some (.place a b)) →
    ∀ a, t.mem.read a = s.mem.read a)

/-- RESULT changes only by a FINALIZE in the engine's own turn, and by reset to zero (10_state.md R20,
41_hash_length_packer.md R82). -/
def Obligations.OnlyFinalizeWritesResult : Prop :=
  ∀ s t : State, step s = .next t → t.result ≠ s.result →
    (s.EnginesTurn ∧ engineInstr s = some .finalize ∧ s.st = .busy ∧ t.st = .done ∧
      exec .finalize (setEvents s.events.tail s) = .next t) ∨
    (s.events.head? = some .reset ∧ t.result = 0)

/-- ACC, LEN and PTR change only by an ABSORB in the engine's own turn, an accepted START, or reset (10_state.md R14, R15,
R16). -/
def Obligations.HiddenRegistersWrittenOnlyByStartAndAbsorb : Prop :=
  ∀ s t : State, step s = .next t → (t.acc ≠ s.acc ∨ t.len ≠ s.len ∨ t.ptr ≠ s.ptr) →
    (s.EnginesTurn ∧ ∃ c, engineInstr s = some (.absorb c) ∧ s.st = .busy ∧ t.st = .busy ∧
      exec (.absorb c) (setEvents s.events.tail s) = .next t) ∨
    (s.st ≠ .busy ∧ t.st = .busy ∧ ∃ a, s.events.head? = some (.host a) ∧ a.write = true ∧
      a.addr = s.platform.blockBase ∧ a.data = 0x00000003) ∨
    s.events.head? = some .reset

/-- BASE changes only by a WR_BASE or reset: the engine never writes it (10_state.md R19). -/
def Obligations.BaseWrittenOnlyByHost : Prop :=
  ∀ s t : State, step s = .next t → t.base ≠ s.base →
    (∃ a, s.events.head? = some (.host a) ∧ a.write = true ∧ a.addr = s.platform.blockBase + 8) ∨
    (s.events.head? = some .reset ∧ t.base = 0)

/-- The sequencing of STATE over every step (10_state.md R17, 42_host_interface.md R95 to R97,
60_exceptions.md R115, R121): BUSY is entered by an accepted START, ERROR by START_ABSENT, DONE by
FINALIZE in the engine's own turn, IDLE by reset, and none otherwise. -/
def Obligations.StateChangesOnlyByItsFourCauses : Prop :=
  ∀ s t : State, step s = .next t → t.st ≠ s.st →
    (t.st = .busy → ∃ a, s.events.head? = some (.host a) ∧ a.write = true ∧
      a.addr = s.platform.blockBase ∧ a.data = 0x00000003 ∧ t.errCode = 0) ∧
    (t.st = .error → s.st ≠ .busy ∧ ∃ a, s.events.head? = some (.host a) ∧ a.write = true ∧
      a.addr = s.platform.blockBase ∧ a.data = 0x00000001 ∧ t.errCode = 1) ∧
    (t.st = .done → s.st = .busy ∧ s.EnginesTurn ∧ engineInstr s = some .finalize ∧
      exec .finalize (setEvents s.events.tail s) = .next t) ∧
    (t.st = .idle → s.events.head? = some .reset)

/-- Reset, in any STATE: the reset values the spec gives, no memory access, the engine without a step
(70_reset_and_hazards.md R133, R134, 10_state.md R29). What ACC, LEN and PTR hold is the model's choice
(assumption 1) and is not stated; that the pending events and the platform stay is the model's reading
(assumption 19). -/
def Obligations.ResetGivesSpecifiedValues : Prop :=
  ∀ (s : State) (es : List Event), s.events = .reset :: es → ∃ t, step s = .next t ∧
    t.st = .idle ∧ t.errCode = 0 ∧ t.base = 0 ∧ t.result = 0 ∧ statusWord t = 0x00000000 ∧
    engineInstr t = none ∧ (∀ a, t.mem.read a = s.mem.read a) ∧ t.platform = s.platform ∧ t.events = es

/-- A byte placed from outside: that byte and no other, no register, and during BUSY a byte that changes is
recorded (20_memory.md R35, R39; assumption 10). -/
def Obligations.PlacedByteChangesOneByteOnly : Prop :=
  ∀ (s : State) (a : Nat) (b : Byte) (es : List Event), s.events = .place a b :: es →
    a < s.platform.space → s.mem.wf = true → ∃ t, step s = .next t ∧
      t.mem.read a = b ∧ (∀ c, c ≠ a → t.mem.read c = s.mem.read c) ∧
      (s.st = .busy ∧ s.mem.read a ≠ b → t.changed = a :: s.changed) ∧
      (¬(s.st = .busy ∧ s.mem.read a ≠ b) → t.changed = s.changed) ∧
      t = { s with mem := t.mem, changed := t.changed, events := es }

/-- The model's test of the broken duty says what 20_memory.md R39 says: some byte from the run's start up to
and including the terminator was changed, for a run of fewer than `2^ADDR_W` bytes (assumption 10). -/
def Obligations.DutyIsBrokenExactlyOnTheInput : Prop :=
  ∀ (s : State) (k : Nat), s.runStart.toNat < s.platform.space → k < s.platform.space →
    s.ptr.toNat = (s.runStart.toNat + k) % s.platform.space → (∀ a ∈ s.changed, a < s.platform.space) →
    (dutyBroken s = true ↔ ∃ j ≤ k, (s.runStart.toNat + j) % s.platform.space ∈ s.changed)

/-! ### Invariants -/

/-- The standing invariant holds at reset. Its clauses on the memory, PTR and the run's records rest on
assumptions 1, 2 and 10 there. -/
def Obligations.ResetIsGood : Prop := State.reset.Inv

/-- Every step keeps the standing invariant: the memory's canonical form, PTR and BASE within ADDR_W bits, the
model's record of changed bytes within the input byte space (assumption 10), ERR_CODE 0x01 exactly in ERROR
(10_state.md R16, R18, R19, 42_host_interface.md R100). -/
def Obligations.StepKeepsGoodStates : Prop :=
  ∀ s t : State, s.Inv → step s = .next t → t.Inv

/-- The run invariant of 10_state.md R27 holds after reset, and after an accepted START with `k = 0`: no byte is
absorbed (the model's record, assumption 10). -/
def Obligations.StartEstablishesRunInvariant : Prop :=
  State.reset.RunInv ∧
  ∀ (s t : State) (i : Instr), i = .start ∨ i = .wrCtrl 0x00000003 → s.st ≠ .busy → exec i s = .next t →
    t.RunInv ∧ t.st = .busy ∧ t.consumed = []

/-- Every step keeps the run invariant, under any host transactions, resets and placed bytes: while BUSY, what
PTR, LEN and ACC are after `k` ABSORB steps over the bytes they read (10_state.md R27), and that these are the
memory's where none of them was changed (20_memory.md R39); in DONE, that RESULT is COMPUTE of them where the
duty was kept (R28). The records of the run are the model's (assumption 10). -/
def Obligations.StepKeepsRunInvariant : Prop :=
  ∀ s t : State, s.RunInv → step s = .next t → t.RunInv

/-! ### Whole runs -/

/-- A whole run (40_djb2_hash_engine.md R71, 41_hash_length_packer.md R83, R84): an accepted START over a
terminated, readable input of `n` bytes, and then the engine alone. It is BUSY for the next `n` steps, and
after `n + 1` engine steps RESULT is COMPUTE of the input, with the length byte on top and the hash
below, and PTR at the terminator. That the engine steps where no event is pending is the model's choice
(assumption 4). -/
def Obligations.RunComputesPackedResult : Prop :=
  ∀ (s : State) (n : Nat), s.st ≠ .busy → s.events = [.host (accessOf s.platform 0b100 0x00000003)] →
    Terminated s (s.base.toNat % s.platform.space) n →
    ReadableInput s (s.base.toNat % s.platform.space) n →
    (∀ k ≤ n, ∃ u, steps (k + 1) s = .next u ∧ u.st = .busy ∧
      u.result = s.result) ∧
    ∃ t, steps (n + 2) s = .next t ∧ t.st = .done ∧ t.errCode = 0 ∧
      t.result = compute (inputBytes s.platform s.mem (s.base.toNat % s.platform.space) n) ∧
      (t.result.extractLsb' 24 8).toNat = n % 256 ∧
      t.result.extractLsb' 0 24 =
        djb2 24 (inputBytes s.platform s.mem (s.base.toNat % s.platform.space) n) ∧
      t.ptr.toNat = (s.base.toNat + n) % s.platform.space

/-- Two runs over the same bytes before the first zero end in the same RESULT after the same number of
steps, whatever else the two states hold: other bytes, another start, earlier results, another platform
(40_djb2_hash_engine.md R73, R76; the schedule by assumption 4). -/
def Obligations.RunsOverEqualInputAgree : Prop :=
  ∀ (s u : State) (n : Nat), s.st ≠ .busy → u.st ≠ .busy →
    s.events = [.host (accessOf s.platform 0b100 0x00000003)] →
    u.events = [.host (accessOf u.platform 0b100 0x00000003)] →
    Terminated s (s.base.toNat % s.platform.space) n →
    Terminated u (u.base.toNat % u.platform.space) n →
    ReadableInput s (s.base.toNat % s.platform.space) n →
    ReadableInput u (u.base.toNat % u.platform.space) n →
    inputBytes s.platform s.mem (s.base.toNat % s.platform.space) n =
      inputBytes u.platform u.mem (u.base.toNat % u.platform.space) n →
    ∃ t v, steps (n + 2) s = .next t ∧
      steps (n + 2) u = .next v ∧
      t.st = .done ∧ v.st = .done ∧ t.result = v.result ∧ t.acc = v.acc ∧ t.len = v.len

/-- A run over an input byte space without a zero never ends: after any number of steps it is BUSY, RESULT
is untouched, and PTR has gone round (40_djb2_hash_engine.md R72; the schedule by assumption 4). -/
def Obligations.RunWithoutTerminatorNeverEnds : Prop :=
  ∀ s : State, s.events = [] → s.st = .busy → s.ptr.toNat < s.platform.space →
    (∀ a < s.platform.space, s.mem.read a ≠ 0) →
    (∀ a < s.platform.space, readable s.platform a = true) →
    ∀ n, ∃ t, steps n s = .next t ∧ t.st = .busy ∧ t.result = s.result ∧
      t.ptr.toNat = (s.ptr.toNat + n) % s.platform.space

/-- After an accepted START and any number `k` of engine turns, the next RD_STATUS returns BUSY, or DONE once the
run's own FINALIZE is among those turns, and never the DONE or ERROR of before (70_reset_and_hazards.md R138). With
no turn between, `k = 0`, it returns BUSY. -/
def Obligations.StatusAfterStartIsNeverStale : Prop :=
  ∀ (s t u : State) (i : Instr) (k : Nat), i = .start ∨ i = .wrCtrl 0x00000003 → s.st ≠ .busy →
    exec i s = .next t → steps k (setEvents (List.replicate k .engine) t) = .next u →
    ∃ v, exec .rdStatus u = .next v ∧
      (v.rdData = 0x00000001 ∨ v.rdData = 0x00000002) ∧
      (v.rdData = 0x00000002 ↔ ∃ j < k, ∃ w,
        steps j (setEvents (List.replicate k .engine) t) = .next w ∧ engineInstr w = some .finalize)

/-- `hash a` under EVERY interleaving of host and engine turns (30_encoding.md R61, 42_host_interface.md
R106, R105): whenever the host program comes to its end, the value it read is COMPUTE of the input at `a`. The
interpreter of the notation is the model's choice (assumption 18). -/
def Obligations.HashReadsComputeUnderEveryInterleaving : Prop :=
  ∀ (s : State) (a : Word) (n : Nat) (ts : List Bool) (h : Session), s.st ≠ .busy →
    Terminated s (a.toNat % s.platform.space) n →
    sessionRun ts (sessionOf s [.hash a]) = .next h → h.prog = [] →
    h.reads = [compute (inputBytes s.platform s.mem (a.toNat % s.platform.space) n)]

/-! ### The host program's contract and several instances -/

/-- Placing an argument leaves a terminated input with the argument's bytes, when they are not zero and fit
the input byte space with their terminator, wherever it begins, past the top included (42_host_interface.md
R106 step 1, 20_memory.md R35). How bytes are placed is the model's choice (assumptions 4 and 18). -/
def Obligations.PlacedArgumentIsTerminatedInput : Prop :=
  ∀ (s : State) (a : Nat) (bs : List Byte), s.mem.wf = true → bs.length < s.platform.space →
    (∀ b ∈ bs, b ≠ 0) → s.events = placeArgument s.platform a bs →
    ∃ t, steps (bs.length + 1) s = .next t ∧ t.events = [] ∧
      Terminated t (a % s.platform.space) bs.length ∧
      inputBytes t.platform t.mem (a % s.platform.space) bs.length = bs ∧
      t = { s with mem := t.mem, changed := t.changed, events := t.events }

/-- The printed line is `djb2_hash: 0x`, eight lower-case hexadecimal digits padded with zeros, and a
newline, with exit status 0 (42_host_interface.md R107, R108). -/
def Obligations.SuccessPrintsEightHexDigits : Prop :=
  ∀ r : Word, (cliSuccess r).exit = 0 ∧
    (cliSuccess r).stdout =
      ['d', 'j', 'b', '2', '_', 'h', 'a', 's', 'h', ':', ' ', '0', 'x'] ++
        List.leftpad 8 '0' (Nat.toDigits 16 r.toNat) ++ ['\n']

/-- A whole invocation under EVERY interleaving (42_host_interface.md R106 to R108): the host places the string
and a terminator at `a`, writes BASE, starts, waits and reads. Whenever it comes to its end, what it read is
COMPUTE of the string and what it prints is that value's line, with exit status 0. The host program's form is the
model's choice (assumption 18). -/
def Obligations.InvocationPrintsComputeUnderEveryInterleaving : Prop :=
  ∀ (s : State) (a : Word) (bs : List Byte) (ts : List Bool) (h : Session) (n : Nat), s.st ≠ .busy →
    s.mem.wf = true → bs.length < s.platform.space → (∀ b ∈ bs, b ≠ 0) →
    sessionRun ts (invocation s (some bs) a) = .next h → h.prog = [] →
    h.reads = [compute bs] ∧
    ∃ o, cliOutcome (some bs) n h = some o ∧ o.exit = 0 ∧ o.stdout = outputLine (compute bs)

/-- An invocation over a readable input comes to its end, and prints, where the host takes its turns up to the
START, the engine then its `n + 1` steps (40_djb2_hash_engine.md R71), and the host the rest (42_host_interface.md
R106 to R108). The host program's form is the model's choice (assumption 18). -/
def Obligations.InvocationEndsUnderAFairSchedule : Prop :=
  ∀ (s : State) (a : Word) (bs : List Byte) (n : Nat), s.st ≠ .busy →
    s.mem.wf = true → bs.length < s.platform.space → (∀ b ∈ bs, b ≠ 0) →
    ReadableInput s (a.toNat % s.platform.space) bs.length →
    ∃ h, sessionRun
        (List.replicate (bs.length + 3) true ++ List.replicate (bs.length + 1) false ++ [true, true])
        (invocation s (some bs) a) = .next h ∧
      h.prog = [] ∧ h.machine.st = .done ∧
      ∃ o, cliOutcome (some bs) n h = some o ∧ o.exit = 0 ∧ o.stdout = outputLine (compute bs)

/-- A missing argument: `start_absent` performs no memory read and records InvalidInput, and the host's exit
status is not zero, whatever it is (42_host_interface.md R109, R97). That the host issues `start_absent`, and that
standard output is then empty, are the model's choices (assumption 18). -/
def Obligations.MissingArgumentExitsNonZero : Prop :=
  ∀ (s : State) (a : Word) (n : Nat), s.st ≠ .busy → ∃ h o,
    sessionRun [true] (invocation s none a) = .next h ∧ h.prog = [] ∧
    h.machine = { s with errCode := 0x01, st := .error } ∧
    cliOutcome none n h = some o ∧ o.exit ≠ 0 ∧ o.stdout = []

/-- A step of one instance leaves every other as it was; a byte placed in the input byte space, which they
share, leaves the others' registers (60_exceptions.md R126; assumption 17). -/
def Obligations.InstancesDoNotInteract : Prop :=
  ∀ (l l' : Instances) (n : Nat), stepInstance n l = .next l' →
    l'.length = l.length ∧
    ∀ (m : Nat) (s : State), m ≠ n → l[m]? = some s → ∃ t, l'[m]? = some t ∧
      t = { s with mem := t.mem, changed := t.changed } ∧
      ((∀ u a b, l[n]? = some u → u.events.head? ≠ some (.place a b)) → t = s)

/-- Every step keeps the instances on one platform: one input byte space, windows apart (60_exceptions.md
R126; assumption 17). -/
def Obligations.InstancesStayOnOnePlatform : Prop :=
  ∀ (l l' : Instances) (n : Nat), l.wf → stepInstance n l = .next l' → l'.wf

/-! ### The fairness premise -/

/-- A run over a terminated, readable input reaches DONE in EVERY behaviour that is fair to the engine
(70_reset_and_hazards.md R144), with RESULT COMPUTE of the input, and is BUSY from the START up to then. The host's
accesses may be any and without end; the block is not reset, and no byte of the input or its terminator is placed
(20_memory.md R39). A behaviour is an order of the model's events (assumption 4). -/
def Obligations.FairRunReachesDone : Prop :=
  ∀ (es : Nat → Event) (u : Nat → State) (n : Nat), Behaviour es u → EngineFair es u →
    (u 0).st ≠ .busy → es 0 = .host (accessOf (u 0).platform 0b100 0x00000003) →
    Terminated (u 0) ((u 0).base.toNat % (u 0).platform.space) n →
    ReadableInput (u 0) ((u 0).base.toNat % (u 0).platform.space) n →
    (∀ k, es k ≠ .reset) →
    (∀ k a b, es k = .place a b → ∀ j ≤ n, a ≠ ((u 0).base.toNat + j) % (u 0).platform.space) →
    ∃ k, 0 < k ∧ (∀ j, 0 < j → j < k → (u j).st = .busy) ∧ (u k).st = .done ∧ (u k).errCode = 0 ∧
      (u k).result =
        compute (inputBytes (u 0).platform (u 0).mem ((u 0).base.toNat % (u 0).platform.space) n)

/-- Only with the fairness premise does a run reach DONE (70_reset_and_hazards.md R144): from every state in BUSY at
a readable PTR there is a behaviour, a host that polls STATUS without end, in which STATE stays BUSY, and it is not
fair to the engine. A behaviour is an order of the model's events (assumption 4). -/
def Obligations.UnfairBehaviourStarvesTheRun : Prop :=
  ∀ s : State, s.st = .busy → readable s.platform s.ptr.toNat = true →
    ∃ (es : Nat → Event) (u : Nat → State), Behaviour es u ∧ u 0 = s ∧
      (∀ k, es k = .host (accessOf s.platform 0b001 0)) ∧
      (∀ k, (u k).st = .busy ∧ (u k).result = s.result ∧ (u k).ptr = s.ptr) ∧ ¬ EngineFair es u

/-- A whole invocation over a readable input comes to its end, and prints, in EVERY interleaving that is fair to the
engine (70_reset_and_hazards.md R144) and to the host (the model's premise, assumption 22), however often `wait`
polls (42_host_interface.md R106 to R108). The host program's form is the model's choice (assumption 18). -/
def Obligations.InvocationEndsUnderEveryFairSchedule : Prop :=
  ∀ (s : State) (a : Word) (bs : List Byte) (n : Nat) (ts : Nat → Bool) (h : Nat → Session), s.st ≠ .busy →
    s.mem.wf = true → bs.length < s.platform.space → (∀ b ∈ bs, b ≠ 0) →
    ReadableInput s (a.toNat % s.platform.space) bs.length →
    SessionBehaviour ts h → h 0 = invocation s (some bs) a →
    SessionEngineFair ts h → SessionHostFair ts h →
    ∃ k, (h k).prog = [] ∧ (h k).machine.st = .done ∧
      ∃ o, cliOutcome (some bs) n (h k) = some o ∧ o.exit = 0 ∧ o.stdout = outputLine (compute bs)
end

