-- ==== Sys2Proof/Laws/Memory.lean ====
section
/-! SUPPORT. The input byte space: a write is read back, leaves every other address alone, and keeps the
canonical form. -/

namespace Sys2Proof.Machine

theorem Memory.wf_iff (m : Memory) :
    m.wf = true ↔ m.Pairwise (fun c d => c.1 < d.1) ∧ ∀ c ∈ m, c.2 ≠ Memory.unlisted := by
  simp [Memory.wf]

theorem Memory.wf_nil : Memory.wf [] = true := by decide

/-- Every address of a written memory is the written one or one that was listed. -/
theorem Memory.mem_write {m : Memory} {a : Nat} {b : Byte} {c : Host.Cell} (h : c ∈ m.write a b) :
    c = (a, b) ∨ c ∈ m := by
  induction m with
  | nil =>
    simp only [Memory.write] at h
    split at h <;> simp_all
  | cons d t ih =>
    obtain ⟨k, v⟩ := d
    simp only [Memory.write] at h
    split at h
    · split at h <;> simp_all
    · split at h
      · split at h
        · exact .inr (List.mem_cons_of_mem _ h)
        · rcases List.mem_cons.1 h with h | h
          · exact .inl h
          · exact .inr (List.mem_cons_of_mem _ h)
      · rcases List.mem_cons.1 h with h | h
        · exact .inr (h ▸ List.mem_cons_self)
        · rcases ih h with h | h
          · exact .inl h
          · exact .inr (List.mem_cons_of_mem _ h)

/-- A written cell is not an unlisted one. -/
theorem Memory.written_ne_unlisted {m : Memory} {a : Nat} {b : Byte} (hm : ∀ c ∈ m, c.2 ≠ Memory.unlisted) :
    ∀ c ∈ m.write a b, c.2 ≠ Memory.unlisted := by
  induction m with
  | nil =>
    simp only [Memory.write]
    split <;> simp_all
  | cons d t ih =>
    obtain ⟨k, v⟩ := d
    have ht : ∀ c ∈ t, c.2 ≠ Memory.unlisted := fun c hc => hm c (List.mem_cons_of_mem _ hc)
    simp only [Memory.write]
    split
    · split
      · exact hm
      · next hb => exact List.forall_mem_cons.2 ⟨hb, hm⟩
    · split
      · split
        · exact ht
        · next hb => exact List.forall_mem_cons.2 ⟨hb, ht⟩
      · intro c hc
        rcases List.mem_cons.1 hc with rfl | hc
        · exact hm _ List.mem_cons_self
        · exact ih ht c hc

/-- The canonical form is kept by a write. -/
theorem Memory.write_wf {m : Memory} (a : Nat) (b : Byte) (h : m.wf = true) : (m.write a b).wf = true := by
  rw [Memory.wf_iff] at h ⊢
  refine ⟨?_, Memory.written_ne_unlisted h.2⟩
  have hp := h.1
  clear h
  induction m with
  | nil =>
    simp only [Memory.write]
    split <;> simp
  | cons d t ih =>
    obtain ⟨k, v⟩ := d
    have hk := (List.pairwise_cons.1 hp).1
    have ht := (List.pairwise_cons.1 hp).2
    simp only [Memory.write]
    split
    case isTrue hlt =>
      split
      · exact hp
      · refine List.pairwise_cons.2 ⟨fun c hc => ?_, hp⟩
        rcases List.mem_cons.1 hc with rfl | hc
        · exact hlt
        · exact Nat.lt_trans hlt (hk c hc)
    case isFalse hge =>
      split
      case isTrue heq =>
        split
        · exact ht
        · exact List.pairwise_cons.2 ⟨fun c hc => heq ▸ hk c hc, ht⟩
      case isFalse hne =>
        refine List.pairwise_cons.2 ⟨fun c hc => ?_, ih ht⟩
        rcases Memory.mem_write hc with rfl | hc
        · show k < a
          omega
        · exact hk c hc

/-- An address below every listed one is unlisted. -/
theorem Memory.read_of_lt {m : Memory} {a : Nat} (h : ∀ c ∈ m, a < c.1) : m.read a = Memory.unlisted := by
  induction m with
  | nil => rfl
  | cons d t ih =>
    obtain ⟨k, v⟩ := d
    have hk : a < k := h _ List.mem_cons_self
    rw [Memory.read, if_neg (by omega)]
    exact ih fun c hc => h c (List.mem_cons_of_mem _ hc)

/-- A write is read back. -/
theorem Memory.read_write_same {m : Memory} (a : Nat) (b : Byte) (h : m.wf = true) :
    (m.write a b).read a = b := by
  have hp := ((Memory.wf_iff m).1 h).1
  clear h
  induction m with
  | nil =>
    simp only [Memory.write]
    split <;> simp_all [Memory.read]
  | cons d t ih =>
    obtain ⟨k, v⟩ := d
    have hk := (List.pairwise_cons.1 hp).1
    simp only [Memory.write]
    split
    case isTrue hlt =>
      split
      case isTrue hb =>
        rw [Memory.read_of_lt, hb]
        intro c hc
        rcases List.mem_cons.1 hc with rfl | hc
        · exact hlt
        · exact Nat.lt_trans hlt (hk c hc)
      case isFalse => simp [Memory.read]
    case isFalse hge =>
      split
      case isTrue heq =>
        split
        case isTrue hb =>
          rw [Memory.read_of_lt, hb]
          intro c hc
          exact heq ▸ hk c hc
        case isFalse => simp [Memory.read]
      case isFalse hne =>
        rw [Memory.read, if_neg (by omega)]
        exact ih (List.pairwise_cons.1 hp).2

/-- A write leaves every other address alone, whatever form the memory has. -/
theorem Memory.read_write_other {m : Memory} {a c : Nat} (b : Byte) (hc : c ≠ a) :
    (m.write a b).read c = m.read c := by
  induction m with
  | nil =>
    simp only [Memory.write]
    split
    · rfl
    · simp [Memory.read, Ne.symm hc]
  | cons d t ih =>
    obtain ⟨k, v⟩ := d
    simp only [Memory.write]
    split
    case isTrue hlt =>
      split
      · rfl
      · rw [Memory.read, if_neg (Ne.symm hc)]
    case isFalse hge =>
      split
      case isTrue heq =>
        split
        case isTrue hb => rw [Memory.read, if_neg (by omega)]
        case isFalse => simp [Memory.read, Ne.symm hc, show k ≠ c by omega]
      case isFalse hne =>
        rw [Memory.read, Memory.read]
        split
        · rfl
        · exact ih

/-- A string of `n` bytes is read from an address. -/
@[simp] theorem inputBytes_length (p : Config.Platform) (m : Memory) (a n : Nat) :
    (inputBytes p m a n).length = n := by
  induction n with
  | zero => rfl
  | succ n ih => simp [inputBytes, ih]

/-- Two memories that agree on the addresses of a string hold the same string there. -/
theorem inputBytes_congr {p : Config.Platform} {m m' : Memory} {a : Nat} (n : Nat)
    (h : ∀ j < n, m.read ((a + j) % p.space) = m'.read ((a + j) % p.space)) :
    inputBytes p m a n = inputBytes p m' a n := by
  induction n with
  | zero => rfl
  | succ n ih => rw [inputBytes, inputBytes, ih fun j hj => h j (by omega), h n (by omega)]

end Sys2Proof.Machine
end

