-- ==== Sys2Proof/Laws/State.lean ====
section
/-! SUPPORT. One lemma per field per register update, so that no later proof unfolds a record update. -/

namespace Sys2Proof.Machine

/-! ### setEvents -/

@[simp] theorem setEvents_platform (es : List Event) (s : State) :
    (setEvents es s).platform = s.platform := rfl
@[simp] theorem setEvents_acc (es : List Event) (s : State) : (setEvents es s).acc = s.acc := rfl
@[simp] theorem setEvents_len (es : List Event) (s : State) : (setEvents es s).len = s.len := rfl
@[simp] theorem setEvents_ptr (es : List Event) (s : State) : (setEvents es s).ptr = s.ptr := rfl
@[simp] theorem setEvents_st (es : List Event) (s : State) : (setEvents es s).st = s.st := rfl
@[simp] theorem setEvents_errCode (es : List Event) (s : State) : (setEvents es s).errCode = s.errCode := rfl
@[simp] theorem setEvents_base (es : List Event) (s : State) : (setEvents es s).base = s.base := rfl
@[simp] theorem setEvents_result (es : List Event) (s : State) : (setEvents es s).result = s.result := rfl
@[simp] theorem setEvents_mem (es : List Event) (s : State) : (setEvents es s).mem = s.mem := rfl
@[simp] theorem setEvents_rdData (es : List Event) (s : State) : (setEvents es s).rdData = s.rdData := rfl
@[simp] theorem setEvents_events (es : List Event) (s : State) : (setEvents es s).events = es := rfl
@[simp] theorem setEvents_runStart (es : List Event) (s : State) :
    (setEvents es s).runStart = s.runStart := rfl
@[simp] theorem setEvents_changed (es : List Event) (s : State) : (setEvents es s).changed = s.changed := rfl
@[simp] theorem setEvents_consumed (es : List Event) (s : State) :
    (setEvents es s).consumed = s.consumed := rfl
@[simp] theorem setEvents_freeCount (es : List Event) (s : State) :
    (setEvents es s).freeCount = s.freeCount := rfl

/-! ### returnData -/

@[simp] theorem returnData_platform (v : Word) (s : State) : (returnData v s).platform = s.platform := rfl
@[simp] theorem returnData_acc (v : Word) (s : State) : (returnData v s).acc = s.acc := rfl
@[simp] theorem returnData_len (v : Word) (s : State) : (returnData v s).len = s.len := rfl
@[simp] theorem returnData_ptr (v : Word) (s : State) : (returnData v s).ptr = s.ptr := rfl
@[simp] theorem returnData_st (v : Word) (s : State) : (returnData v s).st = s.st := rfl
@[simp] theorem returnData_errCode (v : Word) (s : State) : (returnData v s).errCode = s.errCode := rfl
@[simp] theorem returnData_base (v : Word) (s : State) : (returnData v s).base = s.base := rfl
@[simp] theorem returnData_result (v : Word) (s : State) : (returnData v s).result = s.result := rfl
@[simp] theorem returnData_mem (v : Word) (s : State) : (returnData v s).mem = s.mem := rfl
@[simp] theorem returnData_rdData (v : Word) (s : State) : (returnData v s).rdData = v := rfl
@[simp] theorem returnData_events (v : Word) (s : State) : (returnData v s).events = s.events := rfl
@[simp] theorem returnData_runStart (v : Word) (s : State) : (returnData v s).runStart = s.runStart := rfl
@[simp] theorem returnData_changed (v : Word) (s : State) : (returnData v s).changed = s.changed := rfl
@[simp] theorem returnData_consumed (v : Word) (s : State) : (returnData v s).consumed = s.consumed := rfl
@[simp] theorem returnData_freeCount (v : Word) (s : State) : (returnData v s).freeCount = s.freeCount := rfl

/-! ### writeBase -/

@[simp] theorem writeBase_platform (v : Word) (s : State) : (writeBase v s).platform = s.platform := rfl
@[simp] theorem writeBase_acc (v : Word) (s : State) : (writeBase v s).acc = s.acc := rfl
@[simp] theorem writeBase_len (v : Word) (s : State) : (writeBase v s).len = s.len := rfl
@[simp] theorem writeBase_ptr (v : Word) (s : State) : (writeBase v s).ptr = s.ptr := rfl
@[simp] theorem writeBase_st (v : Word) (s : State) : (writeBase v s).st = s.st := rfl
@[simp] theorem writeBase_errCode (v : Word) (s : State) : (writeBase v s).errCode = s.errCode := rfl
@[simp] theorem writeBase_base (v : Word) (s : State) : (writeBase v s).base = baseWritten s.platform v := rfl
@[simp] theorem writeBase_result (v : Word) (s : State) : (writeBase v s).result = s.result := rfl
@[simp] theorem writeBase_mem (v : Word) (s : State) : (writeBase v s).mem = s.mem := rfl
@[simp] theorem writeBase_rdData (v : Word) (s : State) : (writeBase v s).rdData = s.rdData := rfl
@[simp] theorem writeBase_events (v : Word) (s : State) : (writeBase v s).events = s.events := rfl
@[simp] theorem writeBase_runStart (v : Word) (s : State) : (writeBase v s).runStart = s.runStart := rfl
@[simp] theorem writeBase_changed (v : Word) (s : State) : (writeBase v s).changed = s.changed := rfl
@[simp] theorem writeBase_consumed (v : Word) (s : State) : (writeBase v s).consumed = s.consumed := rfl
@[simp] theorem writeBase_freeCount (v : Word) (s : State) : (writeBase v s).freeCount = s.freeCount := rfl

/-! ### init -/

@[simp] theorem init_platform (s : State) : (init s).platform = s.platform := rfl
@[simp] theorem init_acc (s : State) : (init s).acc = BitVec.ofNat 32 seed := rfl
@[simp] theorem init_len (s : State) : (init s).len = 0 := rfl
@[simp] theorem init_ptr (s : State) : (init s).ptr = startAddress s := rfl
@[simp] theorem init_st (s : State) : (init s).st = .busy := rfl
@[simp] theorem init_errCode (s : State) : (init s).errCode = 0x00 := rfl
@[simp] theorem init_base (s : State) : (init s).base = s.base := rfl
@[simp] theorem init_result (s : State) : (init s).result = s.result := rfl
@[simp] theorem init_mem (s : State) : (init s).mem = s.mem := rfl
@[simp] theorem init_rdData (s : State) : (init s).rdData = s.rdData := rfl
@[simp] theorem init_events (s : State) : (init s).events = s.events := rfl
@[simp] theorem init_runStart (s : State) : (init s).runStart = startAddress s := rfl
@[simp] theorem init_changed (s : State) : (init s).changed = [] := rfl
@[simp] theorem init_consumed (s : State) : (init s).consumed = [] := rfl
@[simp] theorem init_freeCount (s : State) : (init s).freeCount = s.freeCount := rfl

/-! ### raiseInvalidInput -/

@[simp] theorem raiseInvalidInput_platform (s : State) : (raiseInvalidInput s).platform = s.platform := rfl
@[simp] theorem raiseInvalidInput_acc (s : State) : (raiseInvalidInput s).acc = s.acc := rfl
@[simp] theorem raiseInvalidInput_len (s : State) : (raiseInvalidInput s).len = s.len := rfl
@[simp] theorem raiseInvalidInput_ptr (s : State) : (raiseInvalidInput s).ptr = s.ptr := rfl
@[simp] theorem raiseInvalidInput_st (s : State) : (raiseInvalidInput s).st = .error := rfl
@[simp] theorem raiseInvalidInput_errCode (s : State) :
    (raiseInvalidInput s).errCode = invalidInputCode := rfl
@[simp] theorem raiseInvalidInput_base (s : State) : (raiseInvalidInput s).base = s.base := rfl
@[simp] theorem raiseInvalidInput_result (s : State) : (raiseInvalidInput s).result = s.result := rfl
@[simp] theorem raiseInvalidInput_mem (s : State) : (raiseInvalidInput s).mem = s.mem := rfl
@[simp] theorem raiseInvalidInput_rdData (s : State) : (raiseInvalidInput s).rdData = s.rdData := rfl
@[simp] theorem raiseInvalidInput_events (s : State) : (raiseInvalidInput s).events = s.events := rfl
@[simp] theorem raiseInvalidInput_runStart (s : State) : (raiseInvalidInput s).runStart = s.runStart := rfl
@[simp] theorem raiseInvalidInput_changed (s : State) : (raiseInvalidInput s).changed = s.changed := rfl
@[simp] theorem raiseInvalidInput_consumed (s : State) : (raiseInvalidInput s).consumed = s.consumed := rfl
@[simp] theorem raiseInvalidInput_freeCount (s : State) : (raiseInvalidInput s).freeCount = s.freeCount := rfl

/-! ### absorbByte -/

@[simp] theorem absorbByte_platform (c : Byte) (s : State) : (absorbByte c s).platform = s.platform := rfl
@[simp] theorem absorbByte_acc (c : Byte) (s : State) : (absorbByte c s).acc = djb2Step s.acc c := rfl
@[simp] theorem absorbByte_len (c : Byte) (s : State) :
    (absorbByte c s).len = BitVec.ofNat 8 (s.len.toNat + 1) := rfl
@[simp] theorem absorbByte_ptr (c : Byte) (s : State) :
    (absorbByte c s).ptr = wrapAddress s.platform (s.ptr.toNat + 1) := rfl
@[simp] theorem absorbByte_st (c : Byte) (s : State) : (absorbByte c s).st = s.st := rfl
@[simp] theorem absorbByte_errCode (c : Byte) (s : State) : (absorbByte c s).errCode = s.errCode := rfl
@[simp] theorem absorbByte_base (c : Byte) (s : State) : (absorbByte c s).base = s.base := rfl
@[simp] theorem absorbByte_result (c : Byte) (s : State) : (absorbByte c s).result = s.result := rfl
@[simp] theorem absorbByte_mem (c : Byte) (s : State) : (absorbByte c s).mem = s.mem := rfl
@[simp] theorem absorbByte_rdData (c : Byte) (s : State) : (absorbByte c s).rdData = s.rdData := rfl
@[simp] theorem absorbByte_events (c : Byte) (s : State) : (absorbByte c s).events = s.events := rfl
@[simp] theorem absorbByte_runStart (c : Byte) (s : State) : (absorbByte c s).runStart = s.runStart := rfl
@[simp] theorem absorbByte_changed (c : Byte) (s : State) : (absorbByte c s).changed = s.changed := rfl
@[simp] theorem absorbByte_consumed (c : Byte) (s : State) :
    (absorbByte c s).consumed = s.consumed ++ [c] := rfl
@[simp] theorem absorbByte_freeCount (c : Byte) (s : State) : (absorbByte c s).freeCount = s.freeCount := rfl

/-! ### finalizeRun -/

@[simp] theorem finalizeRun_platform (s : State) : (finalizeRun s).platform = s.platform := rfl
@[simp] theorem finalizeRun_acc (s : State) : (finalizeRun s).acc = s.acc := rfl
@[simp] theorem finalizeRun_len (s : State) : (finalizeRun s).len = s.len := rfl
@[simp] theorem finalizeRun_ptr (s : State) : (finalizeRun s).ptr = s.ptr := rfl
@[simp] theorem finalizeRun_st (s : State) : (finalizeRun s).st = .done := rfl
@[simp] theorem finalizeRun_errCode (s : State) : (finalizeRun s).errCode = s.errCode := rfl
@[simp] theorem finalizeRun_base (s : State) : (finalizeRun s).base = s.base := rfl
@[simp] theorem finalizeRun_result (s : State) : (finalizeRun s).result = finalResult s := rfl
@[simp] theorem finalizeRun_mem (s : State) : (finalizeRun s).mem = s.mem := rfl
@[simp] theorem finalizeRun_rdData (s : State) : (finalizeRun s).rdData = s.rdData := rfl
@[simp] theorem finalizeRun_events (s : State) : (finalizeRun s).events = s.events := rfl
@[simp] theorem finalizeRun_runStart (s : State) : (finalizeRun s).runStart = s.runStart := rfl
@[simp] theorem finalizeRun_changed (s : State) : (finalizeRun s).changed = s.changed := rfl
@[simp] theorem finalizeRun_consumed (s : State) : (finalizeRun s).consumed = s.consumed := rfl
@[simp] theorem finalizeRun_freeCount (s : State) :
    (finalizeRun s).freeCount = if dutyBroken s then s.freeCount + 1 else s.freeCount := rfl

/-! ### applyReset -/

@[simp] theorem applyReset_platform (s : State) : (applyReset s).platform = s.platform := rfl
@[simp] theorem applyReset_acc (s : State) : (applyReset s).acc = 0 := rfl
@[simp] theorem applyReset_len (s : State) : (applyReset s).len = 0 := rfl
@[simp] theorem applyReset_ptr (s : State) : (applyReset s).ptr = 0 := rfl
@[simp] theorem applyReset_st (s : State) : (applyReset s).st = .idle := rfl
@[simp] theorem applyReset_errCode (s : State) : (applyReset s).errCode = 0 := rfl
@[simp] theorem applyReset_base (s : State) : (applyReset s).base = 0 := rfl
@[simp] theorem applyReset_result (s : State) : (applyReset s).result = 0 := rfl
@[simp] theorem applyReset_mem (s : State) : (applyReset s).mem = s.mem := rfl
@[simp] theorem applyReset_rdData (s : State) : (applyReset s).rdData = s.rdData := rfl
@[simp] theorem applyReset_events (s : State) : (applyReset s).events = s.events := rfl
@[simp] theorem applyReset_runStart (s : State) : (applyReset s).runStart = 0 := rfl
@[simp] theorem applyReset_changed (s : State) : (applyReset s).changed = [] := rfl
@[simp] theorem applyReset_consumed (s : State) : (applyReset s).consumed = [] := rfl
@[simp] theorem applyReset_freeCount (s : State) : (applyReset s).freeCount = s.freeCount := rfl

/-! ### placeByte -/

@[simp] theorem placeByte_platform (a : Nat) (b : Byte) (s : State) :
    (placeByte a b s).platform = s.platform := rfl
@[simp] theorem placeByte_acc (a : Nat) (b : Byte) (s : State) : (placeByte a b s).acc = s.acc := rfl
@[simp] theorem placeByte_len (a : Nat) (b : Byte) (s : State) : (placeByte a b s).len = s.len := rfl
@[simp] theorem placeByte_ptr (a : Nat) (b : Byte) (s : State) : (placeByte a b s).ptr = s.ptr := rfl
@[simp] theorem placeByte_st (a : Nat) (b : Byte) (s : State) : (placeByte a b s).st = s.st := rfl
@[simp] theorem placeByte_errCode (a : Nat) (b : Byte) (s : State) :
    (placeByte a b s).errCode = s.errCode := rfl
@[simp] theorem placeByte_base (a : Nat) (b : Byte) (s : State) : (placeByte a b s).base = s.base := rfl
@[simp] theorem placeByte_result (a : Nat) (b : Byte) (s : State) : (placeByte a b s).result = s.result := rfl
@[simp] theorem placeByte_mem (a : Nat) (b : Byte) (s : State) :
    (placeByte a b s).mem = if s.mem.read a = b then s.mem else s.mem.write a b := rfl
@[simp] theorem placeByte_rdData (a : Nat) (b : Byte) (s : State) : (placeByte a b s).rdData = s.rdData := rfl
@[simp] theorem placeByte_events (a : Nat) (b : Byte) (s : State) : (placeByte a b s).events = s.events := rfl
@[simp] theorem placeByte_runStart (a : Nat) (b : Byte) (s : State) :
    (placeByte a b s).runStart = s.runStart := rfl
@[simp] theorem placeByte_changed (a : Nat) (b : Byte) (s : State) :
    (placeByte a b s).changed = if s.mem.read a ≠ b ∧ s.st = .busy then a :: s.changed else s.changed := rfl
@[simp] theorem placeByte_consumed (a : Nat) (b : Byte) (s : State) :
    (placeByte a b s).consumed = s.consumed := rfl
@[simp] theorem placeByte_freeCount (a : Nat) (b : Byte) (s : State) :
    (placeByte a b s).freeCount = s.freeCount := rfl

end Sys2Proof.Machine
end

