-- ==== Sys2Proof/Laws/Ops.lean ====
section
/-! SUPPORT. For each shared operation, once, everything it can do. -/

namespace Sys2Proof.Machine

open Sys2Proof.Config

/-! ### The platform -/

theorem Platform.space_pos (p : Platform) : 0 < p.space := Nat.two_pow_pos _

/-- An address of the input byte space fits a 32-bit register (00_scope.md R3). -/
theorem Platform.space_le (p : Platform) : p.space ≤ 2 ^ 32 :=
  Nat.pow_le_pow_right (by decide) (by unfold Platform.addrW; omega)

/-- An address register holds an address of the input byte space. -/
@[simp] theorem wrapAddress_toNat (p : Platform) (n : Nat) : (wrapAddress p n).toNat = n % p.space := by
  have h := Nat.mod_lt n (Platform.space_pos p)
  have := Platform.space_le p
  rw [wrapAddress, BitVec.toNat_ofNat, Nat.mod_eq_of_lt (by omega)]

theorem wrapAddress_lt (p : Platform) (n : Nat) : (wrapAddress p n).toNat < p.space := by
  simpa using Nat.mod_lt n (Platform.space_pos p)

/-! ### The two gates -/

theorem whenBusy_next {s t : State} {f : State → State} :
    whenBusy s f = .next t ↔ s.st = .busy ∧ t = f s := by
  unfold whenBusy
  split <;> simp_all [eq_comm]

theorem unlessBusy_eq (s : State) (f : State → State) :
    unlessBusy s f = .next (if s.st = .busy then s else f s) := by
  unfold unlessBusy
  split <;> rfl

/-! ### Operands, status and memory -/

/-- The register mask of an address is reduction modulo `2^ADDR_W` (10_state.md R19). -/
theorem and_addressMask_toNat (p : Platform) (v : Word) : (v &&& addressMask p).toNat = v.toNat % p.space := by
  have hle := Platform.space_le p
  have hpos := Platform.space_pos p
  unfold addressMask
  rw [BitVec.toNat_and, BitVec.toNat_ofNat, Nat.mod_eq_of_lt (by omega)]
  exact Nat.and_two_pow_sub_one_eq_mod _ _

theorem baseWritten_toNat (p : Platform) (v : Word) : (baseWritten p v).toNat = v.toNat % p.space :=
  and_addressMask_toNat p v

theorem baseRead_toNat (s : State) : (baseRead s).toNat = s.base.toNat % s.platform.space :=
  and_addressMask_toNat s.platform s.base

theorem startAddress_toNat (s : State) : (startAddress s).toNat = s.base.toNat % s.platform.space :=
  wrapAddress_toNat _ _

/-- `wait` ends exactly in DONE and ERROR (30_encoding.md R61). -/
theorem statusFinished_statusWord (s : State) :
    statusFinished (statusWord s) = true ↔ s.st = .done ∨ s.st = .error := by
  rw [statusFinished, statusWord, BitVec.getLsbD_setWidth, BitVec.getLsbD_append]
  cases s.st <;> simp [RunState.code]

/-- An input that kept still leaves `PACK(ACC, LEN)` (41_hash_length_packer.md R82). -/
theorem finalResult_of_still {s : State} (h : s.changed = []) : finalResult s = pack s.acc s.len.toNat := by
  simp [finalResult, dutyBroken, h]

/-- Placing a byte keeps the memory's canonical form. -/
theorem placeByte_mem_wf {s : State} (a : Nat) (b : Byte) (h : s.mem.wf = true) :
    (placeByte a b s).mem.wf = true := by
  by_cases hm : s.mem.read a = b
  · simp [hm, h]
  · simp [hm, Memory.write_wf, h]

/-- The memory of a fetch word keeps the canonical form. -/
theorem withFetchWord_mem_wf {s : State} (nbits w : Nat) (h : s.mem.wf = true) :
    (s.withFetchWord nbits w).mem.wf = true := by
  unfold State.withFetchWord pendTableWord
  split
  · exact h
  · exact Memory.write_wf _ _ h
  · exact h
  · exact h

theorem reset_mem_wf : State.reset.mem.wf = true := Memory.wf_nil

/-! ### Decoding -/

theorem decodeCommand_cases (w : Word) :
    (w.extractLsb' 2 30 ≠ 0 ∧ decodeCommand w = .reserved w) ∨
    (w.extractLsb' 2 30 = 0 ∧ w.getLsbD 0 = false ∧ decodeCommand w = .nop (w.getLsbD 1)) ∨
    (w.extractLsb' 2 30 = 0 ∧ w.getLsbD 0 = true ∧ w.getLsbD 1 = true ∧ decodeCommand w = .start) ∨
    (w.extractLsb' 2 30 = 0 ∧ w.getLsbD 0 = true ∧ w.getLsbD 1 = false ∧
      decodeCommand w = .startAbsent) := by
  unfold decodeCommand
  by_cases h : w.extractLsb' 2 30 = 0
  · cases w.getLsbD 0 <;> cases w.getLsbD 1 <;> simp [h]
  · exact .inl ⟨h, if_pos h⟩

/-- A command decodes to the instruction of its line. -/
theorem execWrCtrl_toInstr (w : Word) (s : State) :
    execWrCtrl w s = exec (decodeCommand w).toInstr s := by
  unfold execWrCtrl
  cases decodeCommand w <;> rfl

/-- The window decoder answers an instruction exactly for an aligned 32-bit access in the window. -/
theorem hostInstr_ok {p : Platform} {a : Access} {i : Instr} :
    hostInstr p a = .ok i ↔
      a.size = 4 ∧ p.blockBase ≤ a.addr ∧ a.addr < p.blockBase + windowSize ∧
        (a.addr - p.blockBase) % 4 = 0 ∧
        i = decodeHostTx (selector a.write (a.addr - p.blockBase)) a.data := by
  unfold hostInstr
  split
  · simp_all
  · split
    · simp only [reduceCtorEq, false_iff]
      omega
    · split
      · simp_all
      · simp only [Except.ok.injEq]
        constructor
        · intro h
          exact ⟨by omega, by omega, by omega, by omega, h.symm⟩
        · intro h
          exact h.2.2.2.2.symm

/-- The access built for a selector decodes to that selector's transaction. -/
theorem hostInstr_accessOf (p : Platform) (sel : Sel) (data : Word) :
    hostInstr p (accessOf p sel data) = .ok (decodeHostTx sel data) := by
  have hlt := (sel.extractLsb' 0 2).isLt
  rw [hostInstr_ok]
  simp only [accessOf, windowSize, true_and, Nat.add_sub_cancel_left, Nat.mul_mod_right]
  refine ⟨by omega, by omega, ?_⟩
  congr 1
  rw [selector, Nat.mul_div_cancel_left _ (by decide)]
  revert sel
  decide

theorem engineInstr_some {s : State} {i : Instr} :
    engineInstr s = some i ↔
      s.st = .busy ∧ readable s.platform s.ptr.toNat = true ∧ i = decodeByte (fetchByte s) := by
  unfold engineInstr engineEnabled
  by_cases hb : s.st = .busy <;> cases hr : readable s.platform s.ptr.toNat <;> simp [hb, @eq_comm _ i]

theorem engineInstr_none {s : State} :
    engineInstr s = none ↔ s.st ≠ .busy ∨ readable s.platform s.ptr.toNat = false := by
  unfold engineInstr engineEnabled
  by_cases hb : s.st = .busy <;> cases hr : readable s.platform s.ptr.toNat <;> simp [hb]

/-! ### What an instruction can do -/

/-- Everything `exec` can do where it answers a next state: nothing, a returned read, a written BASE,
INIT, InvalidInput, ABSORB or FINALIZE. -/
theorem exec_next {i : Instr} {s t : State} (h : exec i s = .next t) :
    t = s ∨
    (∃ v, (i = .rdCtrl ∨ i = .rdStatus ∨ i = .rdBase ∨ i = .rdResult) ∧ t = returnData v s) ∨
    (∃ v, i = .wrBase v ∧ t = writeBase v s) ∨
    ((i = .start ∨ ∃ w, i = .wrCtrl w ∧ decodeCommand w = .start) ∧ s.st ≠ .busy ∧ t = init s) ∨
    ((i = .startAbsent ∨ ∃ w, i = .wrCtrl w ∧ decodeCommand w = .startAbsent) ∧ s.st ≠ .busy ∧
      t = raiseInvalidInput s) ∨
    (∃ c, i = .absorb c ∧ s.st = .busy ∧ t = absorbByte c s) ∨
    (i = .finalize ∧ s.st = .busy ∧ t = finalizeRun s) := by
  have hstart : ∀ {t}, execStart s = .next t → t = s ∨ (s.st ≠ .busy ∧ t = init s) := by
    intro t h
    rw [execStart, unlessBusy_eq] at h
    by_cases hb : s.st = .busy <;> simp_all
  have habsent : ∀ {t}, execStartAbsent s = .next t → t = s ∨ (s.st ≠ .busy ∧ t = raiseInvalidInput s) := by
    intro t h
    rw [execStartAbsent, unlessBusy_eq] at h
    by_cases hb : s.st = .busy <;> simp_all
  cases i with
  | nop a => exact .inl (by simpa [exec, execNop, eq_comm] using h)
  | start =>
    rcases hstart h with rfl | ⟨hb, rfl⟩
    · exact .inl rfl
    · exact .inr (.inr (.inr (.inl ⟨.inl rfl, hb, rfl⟩)))
  | startAbsent =>
    rcases habsent h with rfl | ⟨hb, rfl⟩
    · exact .inl rfl
    · exact .inr (.inr (.inr (.inr (.inl ⟨.inl rfl, hb, rfl⟩))))
  | reservedCtrl w => exact .inl (by simpa [exec, execReservedCtrl, eq_comm] using h)
  | absorb c =>
    obtain ⟨hb, rfl⟩ := whenBusy_next.1 h
    exact .inr (.inr (.inr (.inr (.inr (.inl ⟨c, rfl, hb, rfl⟩)))))
  | finalize =>
    obtain ⟨hb, rfl⟩ := whenBusy_next.1 h
    exact .inr (.inr (.inr (.inr (.inr (.inr ⟨rfl, hb, rfl⟩)))))
  | rdCtrl => exact .inr (.inl ⟨_, .inl rfl, (Host.Outcome.next.inj h).symm⟩)
  | rdStatus => exact .inr (.inl ⟨_, .inr (.inl rfl), (Host.Outcome.next.inj h).symm⟩)
  | rdBase => exact .inr (.inl ⟨_, .inr (.inr (.inl rfl)), (Host.Outcome.next.inj h).symm⟩)
  | rdResult => exact .inr (.inl ⟨_, .inr (.inr (.inr rfl)), (Host.Outcome.next.inj h).symm⟩)
  | wrCtrl w =>
    have h' : execWrCtrl w s = .next t := h
    unfold execWrCtrl at h'
    cases hc : decodeCommand w with
    | reserved v => exact .inl (by simpa [hc, execReservedCtrl, eq_comm] using h')
    | nop a => exact .inl (by simpa [hc, execNop, eq_comm] using h')
    | start =>
      rw [hc] at h'
      rcases hstart h' with rfl | ⟨hb, rfl⟩
      · exact .inl rfl
      · exact .inr (.inr (.inr (.inl ⟨.inr ⟨w, rfl, hc⟩, hb, rfl⟩)))
    | startAbsent =>
      rw [hc] at h'
      rcases habsent h' with rfl | ⟨hb, rfl⟩
      · exact .inl rfl
      · exact .inr (.inr (.inr (.inr (.inl ⟨.inr ⟨w, rfl, hc⟩, hb, rfl⟩))))
  | wrStatus w => exact .inl (by simpa [exec, execWrStatus, eq_comm] using h)
  | wrBase v => exact .inr (.inr (.inl ⟨v, rfl, (Host.Outcome.next.inj h).symm⟩))
  | wrResult w => exact .inl (by simpa [exec, execWrResult, eq_comm] using h)

/-- No instruction touches the pending events or the platform. -/
theorem exec_events_platform {i : Instr} {s t : State} (h : exec i s = .next t) :
    t.events = s.events ∧ t.platform = s.platform := by
  rcases exec_next h with rfl | ⟨v, -, rfl⟩ | ⟨v, -, rfl⟩ | ⟨-, -, rfl⟩ | ⟨-, -, rfl⟩ | ⟨c, -, -, rfl⟩ |
    ⟨-, -, rfl⟩ <;> simp

/-! ### What a turn and a step can do -/

/-- The turn of an access built for a selector runs that selector's transaction. -/
theorem turn_accessOf (s : State) (sel : Sel) (data : Word) :
    turn (.host (accessOf s.platform sel data)) s = exec (decodeHostTx sel data) s := by
  simp only [turn, hostInstr_accessOf]

/-- Everything one event can do where it answers a next state. -/
theorem turn_next {e : Event} {s t : State} (h : turn e s = .next t) :
    (e = .engine ∧ engineInstr s = none ∧ t = s) ∨
    (e = .engine ∧ ∃ i, engineInstr s = some i ∧ exec i s = .next t) ∨
    (∃ a i, e = .host a ∧ hostInstr s.platform a = .ok i ∧ exec i s = .next t) ∨
    (e = .reset ∧ t = applyReset s) ∨
    (∃ a b, e = .place a b ∧ a < s.platform.space ∧ t = placeByte a b s) := by
  cases e with
  | engine =>
    simp only [turn] at h
    split at h
    · next i hi => exact .inr (.inl ⟨rfl, i, hi, h⟩)
    · next hi => exact .inl ⟨rfl, hi, (Host.Outcome.next.inj h).symm⟩
  | host a =>
    simp only [turn] at h
    split at h
    · next i hi => exact .inr (.inr (.inl ⟨a, i, rfl, hi, h⟩))
    · cases h
  | reset => exact .inr (.inr (.inr (.inl ⟨rfl, (Host.Outcome.next.inj h).symm⟩)))
  | place a b =>
    simp only [turn] at h
    split at h
    · next ha => exact .inr (.inr (.inr (.inr ⟨a, b, rfl, ha, (Host.Outcome.next.inj h).symm⟩)))
    · cases h

/-- Everything a step without a pending event can do where it answers a next state. -/
theorem quietTurn_next {s t : State} (h : quietTurn s = .next t) :
    (∃ i, engineInstr s = some i ∧ exec i s = .next t) ∨ (s.st ≠ .busy ∧ t = s) := by
  unfold quietTurn at h
  split at h
  · next i hi => exact .inl ⟨i, hi, h⟩
  · split at h
    · cases h
    · next hb => exact .inr ⟨hb, (Host.Outcome.next.inj h).symm⟩

/-- A step is the quiet turn or the oldest event's turn. -/
theorem step_next {s t : State} (h : step s = .next t) :
    (s.events = [] ∧ quietTurn s = .next t) ∨
    (∃ e es, s.events = e :: es ∧ turn e (setEvents es s) = .next t) := by
  unfold step at h
  split at h
  · next he => exact .inl ⟨he, h⟩
  · next e es he => exact .inr ⟨e, es, he, h⟩

/-! ### Sessions -/

/-- Everything the host's turn in a session can do where it answers a next session. -/
theorem hostTurn_next {h h' : Session} (hh : hostTurn h = .next h') :
    (h.prog = [] ∧ h' = h) ∨
    (∃ l rest t, h.prog = l :: rest ∧
      turn (hostEvent h.machine.platform l) h.machine = .next t ∧
      h'.machine = t ∧
      h'.prog = (if l = .wait ∧ statusFinished t.rdData = false then l :: rest else rest) ∧
      h'.reads = if hostReads l then h.reads ++ [t.rdData] else h.reads) := by
  unfold hostTurn at hh
  split at hh
  · next hp => exact .inl ⟨hp, (Host.Outcome.next.inj hh).symm⟩
  · next l rest hp =>
    split at hh
    · next t ht =>
      cases hh
      exact .inr ⟨l, rest, t, hp, ht, rfl, rfl, rfl⟩
    · cases hh
    · cases hh

/-- Everything the engine's turn in a session can do where it answers a next session. -/
theorem engineTurn_next {h h' : Session} (hh : engineTurn h = .next h') :
    h'.prog = h.prog ∧ h'.reads = h.reads ∧ turn .engine h.machine = .next h'.machine := by
  unfold engineTurn at hh
  split at hh
  · next t ht =>
    cases hh
    exact ⟨rfl, rfl, ht⟩
  · cases hh
  · cases hh

end Sys2Proof.Machine
end

