-- ==== Sys2Proof/Laws/PerInstr.lean ====
section
/-! SUPPORT. Statements about every instruction as syntax, one lemma per constructor. -/

namespace Sys2Proof.Laws

/-- How many bytes an instruction of a port takes: 32 bits, 8 bits, or a selector with 32 bits of DATA
(30_encoding.md R56). -/
def portLength : Port → Nat
  | .ctrl => 4
  | .byte => 1
  | .hostTx => 5

namespace EncodedLength

/-- The encoding has the length of the instruction's format (30_encoding.md R56). -/
def Statement (i : Instr) : Prop := (encode i).length = portLength i.port

theorem nop (a : Bool) : Statement (.nop a) := rfl
theorem start : Statement .start := rfl
theorem startAbsent : Statement .startAbsent := rfl
theorem reservedCtrl (w : Word) : Statement (.reservedCtrl w) := rfl
theorem absorb (c : Byte) : Statement (.absorb c) := rfl
theorem finalize : Statement .finalize := rfl
theorem rdCtrl : Statement .rdCtrl := rfl
theorem rdStatus : Statement .rdStatus := rfl
theorem rdBase : Statement .rdBase := rfl
theorem rdResult : Statement .rdResult := rfl
theorem wrCtrl (data : Word) : Statement (.wrCtrl data) := rfl
theorem wrStatus (data : Word) : Statement (.wrStatus data) := rfl
theorem wrBase (data : Word) : Statement (.wrBase data) := rfl
theorem wrResult (data : Word) : Statement (.wrResult data) := rfl

end EncodedLength

end Sys2Proof.Laws
end

