-- ==== Sys2Proof/Laws/Steps.lean ====
section
/-! SUPPORT. Runs of several steps. -/

namespace Sys2Proof.Machine

theorem steps_zero (s : State) : steps 0 s = .next s := rfl

/-- One step and then the rest. -/
theorem steps_succ_of_next {s t : State} (n : Nat) (h : step s = .next t) : steps (n + 1) s = steps n t := by
  simp only [steps, h]

/-- The first step of a run that answers a next state. -/
theorem steps_succ_next {n : Nat} {s u : State} (h : steps (n + 1) s = .next u) :
    ∃ t, step s = .next t ∧ steps n t = .next u := by
  simp only [steps] at h
  split at h
  · next t ht => exact ⟨t, ht, h⟩
  · cases h
  · cases h

/-- A run may be taken in two parts. -/
theorem steps_add {n : Nat} (m : Nat) {s t : State} (h : steps n s = .next t) :
    steps (n + m) s = steps m t := by
  induction n generalizing s with
  | zero =>
    cases h
    rw [Nat.zero_add]
  | succ n ih =>
    obtain ⟨u, hu, hr⟩ := steps_succ_next h
    rw [Nat.succ_add, steps_succ_of_next _ hu]
    exact ih hr

/-- `steps` is the host's run of the core. -/
theorem steps_eq_core_run (n : Nat) (s : State) : steps n s = Host.Core.run Sys2Proof.core n s := by
  induction n generalizing s with
  | zero => rfl
  | succ n ih =>
    have hc : Sys2Proof.core.step s = step s := rfl
    cases h : step s with
    | next t =>
      rw [steps_succ_of_next _ h, ih]
      simp only [Host.Core.run, hc, h]
      rfl
    | fault r =>
      simp only [steps, Host.Core.run, hc, h]
      rfl
    | refused r =>
      simp only [steps, Host.Core.run, hc, h]
      rfl

/-! ### Infinite behaviours -/

theorem whenBusy_setEvents {s t : State} {f : State → State} (es : List Event)
    (hf : f (setEvents es s) = setEvents es (f s)) (h : whenBusy s f = .next t) :
    whenBusy (setEvents es s) f = .next (setEvents es t) := by
  obtain ⟨hb, rfl⟩ := whenBusy_next.1 h
  exact whenBusy_next.2 ⟨hb, hf.symm⟩

theorem unlessBusy_setEvents {s t : State} {f : State → State} (es : List Event)
    (hf : f (setEvents es s) = setEvents es (f s)) (h : unlessBusy s f = .next t) :
    unlessBusy (setEvents es s) f = .next (setEvents es t) := by
  rw [unlessBusy_eq] at h ⊢
  obtain rfl := Host.Outcome.next.inj h
  rw [setEvents_st, hf]
  split <;> rfl

/-- No meaning looks at the pending events. -/
theorem exec_setEvents {i : Instr} {s t : State} (es : List Event) (h : exec i s = .next t) :
    exec i (setEvents es s) = .next (setEvents es t) := by
  have hstart : ∀ {t}, exec .start s = .next t → exec .start (setEvents es s) = .next (setEvents es t) :=
    unlessBusy_setEvents es rfl
  have habsent : ∀ {t}, exec .startAbsent s = .next t →
      exec .startAbsent (setEvents es s) = .next (setEvents es t) := unlessBusy_setEvents es rfl
  cases i with
  | start => exact hstart h
  | startAbsent => exact habsent h
  | wrCtrl w =>
    have hw : ∀ s, exec (.wrCtrl w) s = exec (decodeCommand w).toInstr s := execWrCtrl_toInstr w
    rw [hw] at h ⊢
    cases hc : decodeCommand w <;> rw [hc] at h
    case start => exact hstart h
    case startAbsent => exact habsent h
    all_goals cases h; rfl
  | finalize => exact whenBusy_setEvents es rfl h
  | absorb c => exact whenBusy_setEvents es rfl h
  | _ => cases h; rfl

/-- No turn looks at the pending events. -/
theorem turn_setEvents {e : Event} {s t : State} (es : List Event) (h : turn e s = .next t) :
    turn e (setEvents es s) = .next (setEvents es t) := by
  rcases turn_next h with ⟨rfl, hn, rfl⟩ | ⟨rfl, i, hi, h⟩ | ⟨a, i, rfl, hi, h⟩ | ⟨rfl, rfl⟩ | ⟨a, b, rfl, ha, rfl⟩
  · have hn : engineInstr (setEvents es t) = none := hn
    simp only [turn, hn]
  · have hi : engineInstr (setEvents es s) = some i := hi
    simpa only [turn, hi] using exec_setEvents es h
  · simpa only [turn, setEvents_platform, hi] using exec_setEvents es h
  · rfl
  · have ha' : a < (setEvents es s).platform.space := ha
    simp only [turn, if_pos ha']
    rfl

/-- Every finite part of a behaviour is a run of the machine whose pending events are that part's. -/
theorem behaviour_steps {es : Nat → Event} {u : Nat → State} (hu : Behaviour es u) (k n : Nat) :
    steps n (setEvents ((List.range' k n).map es) (u k)) = .next (setEvents [] (u (k + n))) := by
  induction n generalizing k with
  | zero => rfl
  | succ n ih =>
    have ht := turn_setEvents ((List.range' (k + 1) n).map es) (hu k)
    have h : step (setEvents ((List.range' k (n + 1)).map es) (u k)) =
        .next (setEvents ((List.range' (k + 1) n).map es) (u (k + 1))) := ht
    rw [steps_succ_of_next _ h, ih (k + 1), Nat.add_right_comm, Nat.add_assoc]

/-- Every beginning of a host program's behaviour is its session under that part of the schedule. -/
theorem sessionBehaviour_run {ts : Nat → Bool} {h : Nat → Session} (hh : SessionBehaviour ts h) (k n : Nat) :
    sessionRun ((List.range' k n).map ts) (h k) = .next (h (k + n)) := by
  induction n generalizing k with
  | zero => rfl
  | succ n ih =>
    rw [List.range'_succ, List.map_cons, sessionRun, hh k]
    simpa only [Nat.add_right_comm, Nat.add_assoc] using ih (k + 1)

end Sys2Proof.Machine
end

