-- ==== Sys2Proof/Tests/Slice0.lean ====
section
/-! SUPPORT. The author's own tests: words written out from the spec's encodings, the spec's test vectors one
step each, and for each statement with hypotheses a state that meets them. -/

namespace Sys2Proof.Tests

open Sys2Proof.Machine
open Sys2Proof.Config

/-! ### Well-formedness: an ill-formed term for each check -/

theorem test_absorb_of_zero_is_ill_formed : (Instr.absorb 0x00).wellFormed = false := by decide
theorem test_absorb_of_one_is_well_formed : (Instr.absorb 0x01).wellFormed = true := by decide
theorem test_reserved_without_reserved_bit_is_ill_formed :
    (Instr.reservedCtrl 0x00000003).wellFormed = false := by decide
theorem test_reserved_bit_two_is_well_formed : (Instr.reservedCtrl 0x00000004).wellFormed = true := by decide

/-! ### Decoding: words written out from 30_encoding.md R53 to R58 -/

theorem test_decode_nop : decode .ctrl [0x00, 0x00, 0x00, 0x00] = .ok (.nop false) := rfl
theorem test_decode_nop_arg : decode .ctrl [0x02, 0x00, 0x00, 0x00] = .ok (.nop true) := rfl
theorem test_decode_start : decode .ctrl [0x03, 0x00, 0x00, 0x00] = .ok .start := rfl
theorem test_decode_start_absent : decode .ctrl [0x01, 0x00, 0x00, 0x00] = .ok .startAbsent := rfl
/-- 95_test_vectors.md section 2.4: 0x00000004, 0x00000007 and 0x80000003 are reserved. -/
theorem test_decode_reserved_low : decode .ctrl [0x04, 0x00, 0x00, 0x00] = .ok (.reservedCtrl 0x00000004) := rfl
theorem test_decode_reserved_seven :
    decode .ctrl [0x07, 0x00, 0x00, 0x00] = .ok (.reservedCtrl 0x00000007) := rfl
theorem test_decode_reserved_high :
    decode .ctrl [0x03, 0x00, 0x00, 0x80] = .ok (.reservedCtrl 0x80000003) := rfl
theorem test_decode_finalize : decode .byte [0x00] = .ok .finalize := rfl
theorem test_decode_absorb : decode .byte [0x61] = .ok (.absorb 0x61) := rfl
theorem test_decode_absorb_top : decode .byte [0xFF] = .ok (.absorb 0xFF) := rfl
theorem test_decode_rd_ctrl : decode .hostTx [0b000, 0, 0, 0, 0] = .ok .rdCtrl := rfl
theorem test_decode_rd_status : decode .hostTx [0b001, 0, 0, 0, 0] = .ok .rdStatus := rfl
theorem test_decode_rd_base : decode .hostTx [0b010, 0, 0, 0, 0] = .ok .rdBase := rfl
theorem test_decode_rd_result : decode .hostTx [0b011, 0, 0, 0, 0] = .ok .rdResult := rfl
theorem test_decode_wr_ctrl : decode .hostTx [0b100, 3, 0, 0, 0] = .ok (.wrCtrl 0x00000003) := rfl
theorem test_decode_wr_status : decode .hostTx [0b101, 0xFF, 0, 0, 0] = .ok (.wrStatus 0x000000FF) := rfl
theorem test_decode_wr_base :
    decode .hostTx [0b110, 0xF0, 0x56, 0x34, 0x12] = .ok (.wrBase 0x123456F0) := rfl
theorem test_decode_wr_result :
    decode .hostTx [0b111, 0x78, 0x56, 0x34, 0x12] = .ok (.wrResult 0x12345678) := rfl
theorem test_decode_refuses_wide_selector : decode .hostTx [0x08, 0, 0, 0, 0] = .error (.selectorTooWide 0x08) := rfl
theorem test_decode_refuses_short_command :
    decode .ctrl [0x03, 0x00] = .error (.wrongLength .ctrl 2) := rfl

/-! ### The opcode table's words -/

theorem test_table_start : decodeTableWord 32 0x00000003 = some .start := rfl
theorem test_table_finalize : decodeTableWord 8 0x00 = some .finalize := rfl
theorem test_table_absorb : decodeTableWord 8 0x61 = some (.absorb 0x61) := rfl
theorem test_table_wr_base : decodeTableWord 8 0b110 = some (.wrBase 0) := rfl
theorem test_table_rd_ctrl : decodeTableWord 3 0b000 = some .rdCtrl := rfl

/-! ### The pure functions, on 95_test_vectors.md sections 2.1 to 2.3 -/

theorem test_djb2_first_step : djb2Step 0x00001505#32 0x61 = 0x0002B606 := by decide
theorem test_djb2_largest : djb2Step 0xFFFFFFFF#32 0xFF = 0x000000DE := by decide
theorem test_djb2_crosses_sign : djb2Step 0x7FFFFFFF#32 0x7F = 0x8000005E := by decide
theorem test_djb2_wraps_to_zero : djb2Step 0x07C1F07C#32 0x04 = 0x00000000 := by decide
theorem test_pack_clears_top : pack 0xFFFFFFFF#32 0 = 0x00FFFFFF := by decide
theorem test_pack_aliases : pack 0x12345678#32 257 = 0x01345678 := by decide
theorem test_pack_high_hash : pack 0xFF000000#32 511 = 0xFF000000 := by decide
theorem test_compute_empty : compute [] = 0x00001505 := by decide
theorem test_compute_a : compute [0x61] = 0x0102B606 := by decide
theorem test_compute_ab : compute [0x61, 0x62] = 0x02597728 := by decide
theorem test_compute_hello : compute [0x68, 0x65, 0x6C, 0x6C, 0x6F] = 0x05923099 := by decide
theorem test_compute_high_byte : compute [0x80] = 0x0102B625 := by decide
theorem test_djb2_hello_at_64 : djb2 64 [0x68, 0x65, 0x6C, 0x6C, 0x6F] = 0x310F923099 := by decide

/-! ### One step each, on small states -/

/-- The next state of an outcome, if it is one. -/
def after : Host.Outcome State Fault Refusal → Option State
  | .next s => some s
  | .fault _ => none
  | .refused _ => none

/-- A platform of `2^w` addresses with its window at 0x40. -/
def platformOf (w : Fin 32) : Platform := { addrWidthPred := w, blockBase := 0x40, unreadable := [] }

/-- A machine of four addresses that hold "a", a terminator and a byte after it. -/
def small : State := { State.reset with platform := platformOf 1, mem := [(0, 0x61), (2, 0x62)] }

/-- The same with a run just started at address 0. -/
def running : State := { small with st := .busy, acc := 0x00001505 }

/-- The same in ERROR. -/
def failed : State := { small with st := .error, errCode := 1 }

/-- The same with PTR at an address that may not be read. -/
def stuck : State := { running with platform := { platformOf 1 with unreadable := [(0, 1)] } }

/-- 40_djb2_hash_engine.md R68, its example. -/
theorem test_absorb_example :
    (after (step running)).map (fun t => (t.acc, t.len, t.ptr)) = some (0x0002B606, 1, 1) := by decide
/-- 40_djb2_hash_engine.md R70, its example. -/
theorem test_finalize_example :
    (after (exec .finalize { running with acc := 0x0002B606, len := 1, ptr := 1 })).map
      (fun t => (t.result, t.st, t.ptr)) = some (0x0102B606, .done, 1) := by decide
/-- 40_djb2_hash_engine.md R69 and R75: PTR and LEN wrap. -/
theorem test_absorb_wraps_pointer_and_length :
    (after (exec (.absorb 0x61) { running with ptr := 3, len := 0xFF })).map (fun t => (t.ptr, t.len)) =
      some (0, 0) := by decide
/-- 40_djb2_hash_engine.md R67, its example. -/
theorem test_start_example :
    (after (exec .start { State.reset with base := 0x00001000 })).map
      (fun t => (t.acc, t.len, t.ptr, statusWord t)) = some (0x00001505, 0, 0x00001000, 0x00000001) := by
  decide
/-- 95_test_vectors.md section 2.4: START in ERROR clears ERR_CODE. -/
theorem test_start_from_error :
    (after (exec (.wrCtrl 0x00000003) failed)).map (fun t => statusWord t) = some 0x00000001 := by decide
theorem test_start_while_busy : after (exec .start running) = some running := by decide
/-- 42_host_interface.md R97, its example. -/
theorem test_start_absent_example :
    (after (exec .startAbsent { small with st := .done, result := 0x00001505 })).map
      (fun t => (statusWord t, t.result)) = some (0x00000103, 0x00001505) := by decide
theorem test_start_absent_while_busy : after (exec (.wrCtrl 0x00000001) running) = some running := by decide
theorem test_nop_keeps_done :
    after (exec (.wrCtrl 0x00000002) { small with st := .done, result := 0x0102B606 }) =
      some { small with st := .done, result := 0x0102B606 } := by decide
theorem test_reserved_word_is_ignored : after (exec (.wrCtrl 0x00000007) failed) = some failed := by decide
/-- 95_test_vectors.md section 2.5: ADDR_W = 8, WR_BASE 0x123456F0, then RD_BASE. -/
theorem test_base_write_masks :
    (after (exec (.wrBase 0x123456F0) { small with platform := platformOf 7 })).map (·.base) =
      some 0x000000F0 := by decide
theorem test_base_read :
    (after (exec .rdBase { running with base := 0x00000002 })).map (·.rdData) = some 0x00000002 := by decide
theorem test_status_read_error : (after (exec .rdStatus failed)).map (·.rdData) = some 0x00000103 := by decide
theorem test_ctrl_read :
    (after (exec .rdCtrl { running with rdData := 0xFFFFFFFF })).map (·.rdData) = some 0x00000000 := by decide
theorem test_result_read :
    (after (exec .rdResult { running with result := 0x0102B606 })).map (·.rdData) = some 0x0102B606 := by
  decide
/-- 95_test_vectors.md section 2.5: writes to STATUS and RESULT. -/
theorem test_status_write_discarded : after (exec (.wrStatus 0xFFFFFFFF) small) = some small := by decide
theorem test_result_write_discarded : after (exec (.wrResult 0x12345678) small) = some small := by decide
/-- 70_reset_and_hazards.md R133: reset while BUSY. -/
theorem test_reset_while_busy :
    (after (step { running with result := 0x0102B606, base := 1, events := [.reset] })).map
      (fun t => (statusWord t, t.result, t.base, t.mem)) = some (0, 0, 0, [(0, 0x61), (2, 0x62)]) := by decide
/-- A byte changed under a run at an address it reads breaks the duty; one after the terminator does not. -/
theorem test_duty_broken : dutyBroken { running with ptr := 1, changed := [0] } = true := by decide
theorem test_duty_kept : dutyBroken { running with ptr := 1, changed := [2] } = false := by decide
theorem test_place_records_while_busy :
    (after (step { running with events := [.place 1 0x63] })).map (fun t => (t.mem, t.changed)) =
      some ([(0, 0x61), (1, 0x63), (2, 0x62)], [1]) := by decide
theorem test_window_byte : windowByte failed 0x45 = some 0x01 := by decide

/-! ### The first step after reset, for a word of each format -/

theorem test_first_command :
    (after (step (State.reset.withFetchWord 32 0x00000001))).map statusWord = some 0x00000103 := by decide
theorem test_first_byte :
    (after (step (State.reset.withFetchWord 8 0x00))).map (·.st) = some .done := by decide
theorem test_first_absorb :
    (after (step (State.reset.withFetchWord 8 0x61))).map (·.acc) = some 0x00000061 := by decide
theorem test_first_transaction :
    after (step (State.reset.withFetchWord 8 0b001)) = some State.reset := by decide

/-! ### The host program and its output -/

/-- A schedule of `hash 0` on the small machine: base, start, two engine turns, wait, result. -/
def schedule : List Bool := [true, true, false, false, true, true]

/-- The machine at the end of that schedule. -/
def hashed : State :=
  { small with st := .done, acc := 0x0002B606, len := 1, ptr := 1, result := 0x0102B606, rdData := 0x0102B606,
               consumed := [0x61] }

theorem test_hash_session :
    sessionRun schedule (sessionOf small [.hash 0]) = .next { machine := hashed, prog := [], reads := [0x0102B606] } :=
  rfl
/-- 42_host_interface.md R107, its example. -/
theorem test_output_digits : hex8 0x0102B606 = ['0', '1', '0', '2', 'b', '6', '0', '6'] := by decide

/-! ### Witnesses: the hypotheses of each statement are met -/

theorem witness_DecodeAfterEncodeGivesInstruction :
    (Instr.absorb 0xFF).wellFormed = true ∧ (Instr.reservedCtrl 0x80000000).wellFormed = true := by decide
theorem witness_EncodeAfterDecodeGivesBytes :
    decode .ctrl [0x02, 0, 0, 0] = .ok (.nop true) ∧ decode .hostTx [0b011, 9, 0, 0, 0] = .ok .rdResult :=
  ⟨rfl, rfl⟩
theorem witness_CommandWordsDecodeByTheTable :
    (∃ k, 2 ≤ k ∧ k < 32 ∧ (0x00000004#32).getLsbD k = true) ∧
    (∃ k, 2 ≤ k ∧ k < 32 ∧ (0x80000001#32).getLsbD k = true) ∧
    (0#32).toNat = 0 ∧ (2#32).toNat = 2 ∧ (3#32).toNat = 3 ∧ (1#32).toNat = 1 :=
  ⟨⟨2, by decide⟩, ⟨31, by decide⟩, by decide⟩
theorem witness_InputBytesDecodeOnlyWhileBusy :
    small.st ≠ .busy ∧ readable stuck.platform stuck.ptr.toNat = false ∧
    (running.st = .busy ∧ readable running.platform running.ptr.toNat = true ∧
      (running.mem.read running.ptr.toNat).toNat ≠ 0) ∧
    (({ running with ptr := 3 } : State).mem.read 3).toNat = 0 ∧ readable running.platform 3 = true := by
  decide
theorem witness_StepRunsDecodedInstruction :
    (({ running with events := [.engine] } : State).events = [.engine] ∧ running.st = .busy ∧
      readable running.platform running.ptr.toNat = true) ∧ running.events = [] ∧
    ({ small with events := [.host ⟨true, 0x40 + 0, 4, 3⟩] } : State).events =
      [.host ⟨true, small.platform.blockBase + 0, 4, 3⟩] ∧
    ({ small with events := [.host ⟨false, 0x40 + 12, 4, 0⟩] } : State).events =
      [.host ⟨false, small.platform.blockBase + 12, 4, 0⟩] := by decide
theorem witness_StepStopsOnlyOutsideTheBlock :
    step { small with events := [.host ⟨true, 0x40, 1, 3⟩] } = .refused .accessNotWord ∧
    step { small with events := [.host ⟨true, 0x3F, 4, 3⟩] } = .refused .accessOutsideWindow ∧
    step { small with events := [.host ⟨true, 0x50, 4, 3⟩] } = .refused .accessOutsideWindow ∧
    step { small with events := [.host ⟨true, 0x4D, 4, 3⟩] } = .refused .accessMisaligned ∧
    step stuck = .fault .engineStuck ∧
    step { small with events := [.place 4 0x61] } = .fault .addressOutsideSpace :=
  ⟨rfl, rfl, rfl, rfl, rfl, rfl⟩
theorem witness_AccessIsRefusedExactlyOutsideTheWindowForm :
    ({ small with events := [.host ⟨true, 0x4C, 4, 3⟩] } : State).events = .host ⟨true, 0x4C, 4, 3⟩ :: [] := rfl
theorem witness_PackedResultIsIndependentOfWidths : 24 ≤ 24 ∧ 8 ≤ 8 := by decide
theorem witness_StartInitialisesOrIsIgnored :
    (Instr.start = .start ∨ Instr.start = .wrCtrl 3) ∧ small.st ≠ .busy ∧ failed.st ≠ .busy ∧
      running.st = .busy := by decide
theorem witness_StartAbsentRaisesInvalidInputOrIsIgnored :
    (Instr.wrCtrl 1 = .startAbsent ∨ Instr.wrCtrl 1 = .wrCtrl 1) ∧ small.st ≠ .busy ∧ running.st = .busy := by
  decide
theorem witness_StartWhileBusyIsLost : running.st = .busy := by decide
theorem witness_ReservedCommandWordIsIgnored : 4 ≤ (0x00000004#32).toNat ∧ 4 ≤ (0xFFFFFFFF#32).toNat := by
  decide
theorem witness_AbsorbUpdatesHashLengthAndPointer :
    running.st = .busy ∧ ({ running with ptr := 3 } : State).ptr.toNat = 2 ^ running.platform.addrW - 1 := by
  decide
theorem witness_FinalizePacksResultAndIsDone :
    running.st = .busy ∧ dutyBroken running = false ∧ dutyBroken { running with changed := [0] } = true := by
  decide
theorem witness_EngineHasNoStepOutsideBusy :
    small.st ≠ .busy ∧ ({ small with events := [.engine] } : State).events = .engine :: [] ∧ small.events = [] := by
  decide
theorem witness_UnreadableAddressStopsTheEngine :
    stuck.st = .busy ∧ readable stuck.platform stuck.ptr.toNat = false ∧ stuck.events = [] ∧ stuck.errCode = 0 ∧
      ({ stuck with events := [.engine] } : State).events = .engine :: [] := by decide
theorem witness_EngineReadsOnlyAtPtr :
    running.events = [] ∧ (∃ t, step running = .next t) ∧
      Memory.read [(0, 0x61), (3, 0x01)] running.ptr.toNat = running.mem.read running.ptr.toNat :=
  ⟨rfl, ⟨_, rfl⟩, by decide⟩
theorem witness_HostTransactionsAlwaysComplete : (Instr.wrCtrl 3).port = .hostTx ∧ running.st = .busy := by
  decide
theorem witness_HostTransactionsCommuteWithAbsorb : running.st = .busy ∧ Instr.rdResult.port = .hostTx := by
  decide
theorem witness_WindowBytesAreLittleEndianLanes : 12 < 16 ∧ 12 % 4 = 0 ∧ 3 < 4 := by decide
theorem witness_BlockNeverWritesInput :
    (∃ t, exec .finalize running = .next t) ∧ (∃ t, step running = .next t) ∧
      ∀ a b, running.events.head? ≠ some (.place a b) :=
  ⟨⟨_, rfl⟩, ⟨_, rfl⟩, fun _ _ h => by cases h⟩
theorem witness_OnlyFinalizeWritesResult :
    ∃ t, step { running with ptr := 1, acc := 5 } = .next t ∧ t.result ≠ running.result := ⟨_, rfl, by decide⟩
theorem witness_HiddenRegistersWrittenOnlyByStartAndAbsorb :
    ∃ t, step { small with events := [.host ⟨true, 0x40, 4, 3⟩] } = .next t ∧ t.acc ≠ small.acc :=
  ⟨_, rfl, by decide⟩
theorem witness_BaseWrittenOnlyByHost :
    ∃ t, step { small with events := [.host ⟨true, 0x48, 4, 3⟩] } = .next t ∧ t.base ≠ small.base :=
  ⟨_, rfl, by decide⟩
theorem witness_StateChangesOnlyByItsFourCauses :
    (∃ t, step { small with events := [.host ⟨true, 0x40, 4, 3⟩] } = .next t ∧ t.st = .busy) ∧
    (∃ t, step { small with events := [.host ⟨true, 0x40, 4, 1⟩] } = .next t ∧ t.st = .error) ∧
    (∃ t, step { running with ptr := 1 } = .next t ∧ t.st = .done) ∧
    (∃ t, step { running with events := [.reset] } = .next t ∧ t.st = .idle) :=
  ⟨⟨_, rfl, rfl⟩, ⟨_, rfl, rfl⟩, ⟨_, rfl, rfl⟩, ⟨_, rfl, rfl⟩⟩
theorem witness_ResetGivesSpecifiedValues :
    ({ running with events := [.reset] } : State).events = .reset :: [] := rfl
theorem witness_PlacedByteChangesOneByteOnly :
    ({ running with events := [.place 3 0x63] } : State).events = .place 3 0x63 :: [] ∧
      3 < running.platform.space ∧ running.mem.wf = true ∧ running.st = .busy ∧ running.mem.read 3 ≠ 0x63 ∧
      small.st ≠ .busy := by decide
theorem witness_DutyIsBrokenExactlyOnTheInput :
    ({ running with runStart := 3, ptr := 1, changed := [0, 2] } : State).runStart.toNat < running.platform.space ∧
      2 < running.platform.space ∧ (1#32).toNat = ((3#32).toNat + 2) % running.platform.space ∧
      ∀ a ∈ [0, 2], a < running.platform.space := by decide
/-- A running state of the standing invariant. -/
theorem running_inv : running.Inv where
  memory := by decide
  inSpace := by decide
  ptr := by decide
  base := by decide
  runStart := by decide
  changed := by decide
  errCode := by decide
theorem failed_inv : failed.Inv where
  memory := by decide
  inSpace := by decide
  ptr := by decide
  base := by decide
  runStart := by decide
  changed := by decide
  errCode := by decide
theorem witness_StatusReadShowsStateAndErrorCode : running.Inv ∧ failed.Inv := ⟨running_inv, failed_inv⟩
theorem witness_StepKeepsGoodStates : running.Inv ∧ ∃ t, step running = .next t := ⟨running_inv, _, rfl⟩
theorem witness_StartEstablishesRunInvariant :
    small.st ≠ .busy ∧ (∃ t, exec .start small = .next t) ∧ ∃ t, exec (.wrCtrl 0x00000003) small = .next t :=
  ⟨by decide, ⟨_, rfl⟩, _, rfl⟩
/-- A state one byte into its run, a byte that the run does not read having been changed. -/
def oneByteIn : State :=
  { running with acc := 0x0002B606, len := 1, ptr := 1, consumed := [0x61], changed := [2] }
theorem oneByteIn_runInv : oneByteIn.RunInv where
  ptr := by decide
  len := by decide
  acc := by decide
  nonzero := by decide
  fromMemory := by decide
  result := by decide
theorem oneByteIn_premise : ∀ j < oneByteIn.consumed.length,
    (oneByteIn.runStart.toNat + j) % oneByteIn.platform.space ∉ oneByteIn.changed := by decide
theorem witness_StepKeepsRunInvariant : oneByteIn.RunInv ∧ ∃ t, step oneByteIn = .next t :=
  ⟨oneByteIn_runInv, _, rfl⟩
/-- The next step of that state is its FINALIZE, in DONE with the duty kept. -/
theorem test_run_ends_with_the_duty_kept :
    (after (step oneByteIn)).map (fun t => (t.st, dutyBroken t, t.result)) =
      some (.done, false, 0x0102B606) := by decide
/-- The input of the small machine at address 3 is empty, and at address 2 it is one byte. -/
theorem small_terminated_empty : Terminated small 3 0 := ⟨by decide, by decide⟩
theorem small_terminated_one : Terminated small 2 1 := ⟨by decide, by decide⟩
theorem small_readable : ReadableInput small 2 1 := by decide
theorem witness_RunComputesPackedResult :
    ∃ s : State, s.st ≠ .busy ∧ s.events = [.host (accessOf s.platform 0b100 0x00000003)] ∧
      Terminated s (s.base.toNat % s.platform.space) 1 ∧ ReadableInput s (s.base.toNat % s.platform.space) 1 :=
  ⟨{ small with base := 2, events := [.host (accessOf small.platform 0b100 0x00000003)] }, by decide, rfl,
    ⟨by decide, by decide⟩, by decide⟩
theorem witness_RunsOverEqualInputAgree :
    ∃ s u : State, s.st ≠ .busy ∧ u.st ≠ .busy ∧
      s.events = [.host (accessOf s.platform 0b100 0x00000003)] ∧
      u.events = [.host (accessOf u.platform 0b100 0x00000003)] ∧
      Terminated s (s.base.toNat % s.platform.space) 1 ∧ Terminated u (u.base.toNat % u.platform.space) 1 ∧
      ReadableInput s (s.base.toNat % s.platform.space) 1 ∧
      ReadableInput u (u.base.toNat % u.platform.space) 1 ∧
      inputBytes s.platform s.mem (s.base.toNat % s.platform.space) 1 =
        inputBytes u.platform u.mem (u.base.toNat % u.platform.space) 1 :=
  ⟨{ small with events := [.host (accessOf small.platform 0b100 0x00000003)] },
    { State.reset with st := .error, errCode := 1, base := 7, mem := [(7, 0x61)], result := 9,
                       events := [.host (accessOf defaultPlatform 0b100 0x00000003)] },
    by decide, by decide, rfl, rfl, ⟨by decide, by decide⟩, ⟨by decide, by decide⟩, by decide, by decide,
    by decide⟩
/-- A running machine whose four bytes are all nonzero. -/
def endless : State := { running with mem := [(0, 1), (1, 2), (2, 3), (3, 4)] }
theorem witness_RunWithoutTerminatorNeverEnds :
    endless.events = [] ∧ endless.st = .busy ∧ endless.ptr.toNat < endless.platform.space ∧
      (∀ a < endless.platform.space, endless.mem.read a ≠ 0) ∧
      (∀ a < endless.platform.space, readable endless.platform a = true) := by decide
theorem witness_StatusAfterStartIsNeverStale :
    small.st ≠ .busy ∧ exec .start small = .next (init small) ∧
      (∃ u, steps 0 (setEvents (List.replicate 0 .engine) (init small)) = .next u ∧ u.st = .busy) ∧
      (∃ u, steps 1 (setEvents (List.replicate 1 .engine) (init small)) = .next u ∧ u.st = .busy) ∧
      ∃ u, steps 2 (setEvents (List.replicate 2 .engine) (init small)) = .next u ∧ u.st = .done :=
  ⟨by decide, rfl, ⟨_, rfl, rfl⟩, ⟨_, rfl, rfl⟩, _, rfl, rfl⟩
theorem witness_HashReadsComputeUnderEveryInterleaving :
    small.st ≠ .busy ∧ Terminated small ((0x00000000#32).toNat % small.platform.space) 1 ∧
      ∃ h, sessionRun schedule (sessionOf small [.hash 0]) = .next h ∧ h.prog = [] :=
  ⟨by decide, ⟨by decide, by decide⟩, _, rfl, rfl⟩
theorem witness_PlacedArgumentIsTerminatedInput :
    small.mem.wf = true ∧ [0x61#8, 0x62, 0x63].length < small.platform.space ∧
      (∀ b ∈ [0x61#8, 0x62, 0x63], b ≠ 0) ∧
      ({ small with events := placeArgument (platformOf 1) 3 [0x61, 0x62, 0x63] } : State).events =
        placeArgument small.platform 3 [0x61, 0x62, 0x63] := by decide
/-- The host's turns up to the START of the string "a" at address 3, the engine's, and the host's last. -/
def invocationSchedule : List Bool := List.replicate 4 true ++ List.replicate 2 false ++ [true, true]
/-- 42_host_interface.md R106, R107: the string "a", placed over the top of the space, read and printed. -/
theorem test_invocation_of_a :
    ∃ h, sessionRun invocationSchedule (invocation small (some [0x61]) 3) = .next h ∧ h.prog = [] ∧
      h.machine.mem = [(2, 0x62), (3, 0x61)] ∧ h.reads = [0x0102B606] := ⟨_, rfl, rfl, by decide, by decide⟩
theorem witness_InvocationPrintsComputeUnderEveryInterleaving :
    small.st ≠ .busy ∧ small.mem.wf = true ∧ [0x61#8].length < small.platform.space ∧
      (∀ b ∈ [0x61#8], b ≠ 0) ∧
      ∃ h, sessionRun invocationSchedule (invocation small (some [0x61]) 3) = .next h ∧ h.prog = [] :=
  ⟨by decide, by decide, by decide, by decide, _, rfl, rfl⟩
theorem witness_InvocationEndsUnderAFairSchedule :
    small.st ≠ .busy ∧ small.mem.wf = true ∧ [0x61#8].length < small.platform.space ∧
      (∀ b ∈ [0x61#8], b ≠ 0) ∧ ReadableInput small ((3#32).toNat % small.platform.space) [0x61#8].length := by
  decide
/-- A START over the empty input at address 3, and then the engine for ever. -/
def fairEvents : Nat → Event
  | 0 => .host (accessOf small.platform 0b100 0x00000003)
  | _ + 1 => .engine
def fairStates : Nat → State
  | 0 => { small with base := 3 }
  | 1 => init { small with base := 3 }
  | _ + 2 => finalizeRun (init { small with base := 3 })
theorem fairStates_behaviour : Behaviour fairEvents fairStates
  | 0 => rfl
  | 1 => rfl
  | _ + 2 => rfl
theorem fairStates_fair : EngineFair fairEvents fairStates := fun k _ => ⟨k + 1, Nat.le_succ k, rfl⟩
theorem witness_FairRunReachesDone :
    Behaviour fairEvents fairStates ∧ EngineFair fairEvents fairStates ∧ (fairStates 0).st ≠ .busy ∧
      fairEvents 0 = .host (accessOf (fairStates 0).platform 0b100 0x00000003) ∧
      Terminated (fairStates 0) ((fairStates 0).base.toNat % (fairStates 0).platform.space) 0 ∧
      ReadableInput (fairStates 0) ((fairStates 0).base.toNat % (fairStates 0).platform.space) 0 ∧
      (∀ k, fairEvents k ≠ .reset) ∧ ∀ k a b, fairEvents k ≠ .place a b :=
  ⟨fairStates_behaviour, fairStates_fair, by decide, rfl, ⟨by decide, by decide⟩, by decide,
    fun k => by cases k <;> simp [fairEvents], fun k => by cases k <;> simp [fairEvents]⟩
theorem witness_UnfairBehaviourStarvesTheRun :
    running.st = .busy ∧ readable running.platform running.ptr.toNat = true := by decide
/-- The invocation of "a" under its schedule, and the host's turns from then on. -/
def fairTurns (k : Nat) : Bool := invocationSchedule.getD k true
def fairSessions (k : Nat) : Session :=
  match sessionRun (invocationSchedule.take k) (invocation small (some [0x61]) 3) with
  | .next h => h
  | _ => invocation small (some [0x61]) 3
theorem fairSessions_ended {k : Nat} (hk : 8 ≤ k) : fairSessions k = fairSessions 8 := by
  have h : invocationSchedule.take k = invocationSchedule.take 8 := by
    rw [List.take_of_length_le (by simpa [invocationSchedule] using hk), List.take_of_length_le (by decide)]
  simp only [fairSessions, h]
theorem fairSessions_behaviour : SessionBehaviour fairTurns fairSessions := by
  intro k
  by_cases hk : k < 8
  · interval_cases k <;> rfl
  · have ht : fairTurns k = true :=
      List.getD_eq_default _ _ (by simpa [invocationSchedule] using Nat.le_of_not_lt hk)
    rw [fairSessions_ended (by omega), fairSessions_ended (show 8 ≤ k + 1 by omega), ht]
    rfl
/-- A behaviour of the invocation in which both agents are fair. -/
theorem witness_InvocationEndsUnderEveryFairSchedule :
    small.st ≠ .busy ∧ small.mem.wf = true ∧ [0x61#8].length < small.platform.space ∧
      (∀ b ∈ [0x61#8], b ≠ 0) ∧ ReadableInput small ((3#32).toNat % small.platform.space) [0x61#8].length ∧
      SessionBehaviour fairTurns fairSessions ∧ fairSessions 0 = invocation small (some [0x61]) 3 ∧
      SessionEngineFair fairTurns fairSessions ∧ SessionHostFair fairTurns fairSessions := by
  refine ⟨by decide, by decide, by decide, by decide, by decide, fairSessions_behaviour, rfl, ?_, ?_⟩
  · intro k h
    have h : engineEnabled (fairSessions (k + 8)).machine = true := h (k + 8) (by omega)
    rw [fairSessions_ended (by omega)] at h
    exact absurd h (by decide)
  · intro k h
    have h : (fairSessions (k + 8)).prog ≠ [] := h (k + 8) (by omega)
    rw [fairSessions_ended (by omega)] at h
    exact absurd rfl h
theorem witness_MissingArgumentExitsNonZero : small.st ≠ .busy ∧ failed.st ≠ .busy := by decide
/-- Two instances over one input byte space, their windows side by side. -/
def pair : Instances := [running, { small with platform := { platformOf 1 with blockBase := 0x50 } }]
theorem witness_InstancesDoNotInteract :
    (∃ l, stepInstance 0 pair = .next l) ∧ ∃ s, pair[1]? = some s := ⟨⟨_, rfl⟩, _, rfl⟩
theorem pair_wf : pair.wf := ⟨by decide, by simp [pair, windowsApart, running, small, platformOf, windowSize]⟩
theorem witness_InstancesStayOnOnePlatform : pair.wf ∧ ∃ l, stepInstance 0 pair = .next l :=
  ⟨pair_wf, _, rfl⟩

end Sys2Proof.Tests
end

section
/-! The block never writes the input byte space (20_memory.md R38): who can change the memory, from an
instruction over a turn to a whole step. -/

namespace Sys2Proof.Machine

/-- No instruction is a store: a read of the block returns data, a write of the block is a register's
(20_memory.md R38). -/
theorem exec_mem {i : Instr} {s t : State} (h : exec i s = .next t) : t.mem = s.mem := by
  rcases exec_next h with rfl | ⟨v, -, rfl⟩ | ⟨v, -, rfl⟩ | ⟨-, -, rfl⟩ | ⟨-, -, rfl⟩ | ⟨c, -, -, rfl⟩ |
    ⟨-, -, rfl⟩
  · rfl
  · exact returnData_mem v s
  · exact writeBase_mem v s
  · exact init_mem s
  · exact raiseInvalidInput_mem s
  · exact absorbByte_mem c s
  · exact finalizeRun_mem s

/-- Placing a byte is the one event that can change the memory: an engine turn and a host access run an
instruction, and a reset leaves the memory to the platform, which supplies it (20_memory.md R35, assumption 19). -/
theorem turn_mem_of_not_place {e : Event} {s t : State} (h : turn e s = .next t)
    (he : ∀ a b, e ≠ .place a b) : t.mem = s.mem := by
  rcases turn_next h with ⟨-, -, rfl⟩ | ⟨-, i, -, hi⟩ | ⟨a, i, -, -, hi⟩ | ⟨-, rfl⟩ | ⟨a, b, hp, -, -⟩
  · rfl
  · exact exec_mem hi
  · exact exec_mem hi
  · exact applyReset_mem s
  · exact absurd hp (he a b)

theorem quietTurn_mem {s t : State} (h : quietTurn s = .next t) : t.mem = s.mem := by
  rcases quietTurn_next h with ⟨i, -, hi⟩ | ⟨-, rfl⟩
  · exact exec_mem hi
  · rfl

/-- A step keeps the whole memory unless its event places a byte from outside the block. -/
theorem step_mem_of_not_place {s t : State} (h : step s = .next t)
    (he : ∀ a b, s.events.head? ≠ some (.place a b)) : t.mem = s.mem := by
  rcases step_next h with ⟨-, hq⟩ | ⟨e, es, hes, ht⟩
  · exact quietTurn_mem hq
  · have hnot : ∀ a b, e ≠ .place a b := by simpa [hes] using he
    calc t.mem = (setEvents es s).mem := turn_mem_of_not_place ht hnot
      _ = s.mem := setEvents_mem es s

/-- Settles O33: an instruction and a step without a placed byte keep the memory itself, so every byte
read from it. -/
theorem blockNeverWritesInput : Obligations.BlockNeverWritesInput := by
  unfold Obligations.BlockNeverWritesInput
  constructor
  · intro i s t h
    exact exec_mem h
  · intro s t h he a
    rw [step_mem_of_not_place h he]

end Sys2Proof.Machine
end

section
/-! The two decode tables of 30_encoding.md: a command word by its bits (R57), and the byte at PTR, which the
engine decodes only while it has a step (R58, R65). -/

namespace Sys2Proof

/-! ### The command table -/

/-- A set bit of 31..2 is a bit of the reserved field (30_encoding.md R53). -/
theorem reservedField_ne_zero_of_getLsbD {w : Word} {k : Nat} (hlo : 2 ≤ k) (hhi : k < 32)
    (hbit : w.getLsbD k = true) : w.extractLsb' 2 30 ≠ 0 := by
  intro hzero
  have hfield : (w.extractLsb' 2 30).getLsbD (k - 2) = w.getLsbD k := by
    simp [show k - 2 < 30 by omega, show 2 + (k - 2) = k by omega]
  simp [hzero, hbit] at hfield

/-- The table's first line wins whatever GO and ARG_PRESENT are (30_encoding.md R57, R62). -/
theorem decodeCtrl_of_reservedField {w : Word} (h : w.extractLsb' 2 30 ≠ 0) :
    decodeCtrl w = .reservedCtrl w := by
  rw [decodeCtrl, decodeCommand, if_pos h, Command.toInstr]

/-- Settles O3: the first line by the bits of the reserved field; each of the other lines is one word, or the
two NOP words. -/
theorem commandWordsDecodeByTheTable : Obligations.CommandWordsDecodeByTheTable := by
  unfold Obligations.CommandWordsDecodeByTheTable
  intro w
  refine ⟨?reserved, ?nop, ?nopWithArgument, ?start, ?startAbsent⟩
  case reserved =>
    rintro ⟨k, hlo, hhi, hbit⟩
    exact decodeCtrl_of_reservedField (reservedField_ne_zero_of_getLsbD hlo hhi hbit)
  case nop => exact fun h => congrArg decodeCtrl (BitVec.eq_of_toNat_eq (y := 0#32) h)
  case nopWithArgument => exact fun h => congrArg decodeCtrl (BitVec.eq_of_toNat_eq (y := 2#32) h)
  case start => exact fun h => congrArg decodeCtrl (BitVec.eq_of_toNat_eq (y := 3#32) h)
  case startAbsent => exact fun h => congrArg decodeCtrl (BitVec.eq_of_toNat_eq (y := 1#32) h)

/-! ### The byte table -/

theorem decodeByte_of_toNat_eq_zero {b : Byte} (h : b.toNat = 0) : decodeByte b = .finalize :=
  if_pos (BitVec.eq_of_toNat_eq h)

theorem decodeByte_of_toNat_ne_zero {b : Byte} (h : b.toNat ≠ 0) : decodeByte b = .absorb b :=
  if_neg fun hb => h (by rw [hb]; rfl)

namespace Machine

/-- The engine's turn runs the engine's next instruction (40_djb2_hash_engine.md R65). -/
theorem turn_engine_of_some {s : State} {i : Instr} (h : engineInstr s = some i) :
    turn .engine s = exec i s := by
  simp only [turn, h]

/-- While the engine has a step, what the byte at PTR decodes to is its next instruction and what its turn
runs. -/
theorem engine_runs_of_decodeByte {s : State} {i : Instr} (hbusy : s.st = .busy)
    (hread : readable s.platform s.ptr.toNat = true) (hi : decodeByte (s.mem.read s.ptr.toNat) = i) :
    engineInstr s = some i ∧ turn .engine s = exec i s := by
  have hinstr : engineInstr s = some i := engineInstr_some.2 ⟨hbusy, hread, hi.symm⟩
  exact ⟨hinstr, turn_engine_of_some hinstr⟩

/-- Settles O4: the two guards of the engine's step, then the two lines of the byte table. -/
theorem inputBytesDecodeOnlyWhileBusy : Obligations.InputBytesDecodeOnlyWhileBusy := by
  unfold Obligations.InputBytesDecodeOnlyWhileBusy
  intro s
  refine ⟨fun hst => engineInstr_none.2 (.inl hst), fun hstuck => engineInstr_none.2 (.inr hstuck), ?_⟩
  intro hbusy hread
  exact ⟨fun hzero => engine_runs_of_decodeByte hbusy hread (decodeByte_of_toNat_eq_zero hzero),
    fun hne => engine_runs_of_decodeByte hbusy hread (decodeByte_of_toNat_ne_zero hne)⟩

end Machine
end Sys2Proof
end

section
/-! The djb2 engine's updates (40_djb2_hash_engine.md): INIT, which an accepted START performs (R67), and ABSORB
(R68, R69). -/

namespace Sys2Proof.Machine

open Sys2Proof.Config

/-! ### ABSORB -/

/-- One step of the recurrence as the rule writes it, on unbounded integers (40_djb2_hash_engine.md R66). -/
theorem djb2Step_toNat {w : Nat} (h : BitVec w) (c : Byte) :
    (djb2Step h c).toNat = (h.toNat * 33 + c.toNat) % 2 ^ w := by
  rw [djb2Step, BitVec.toNat_ofNat, multiplier]

/-- The top address of the space is followed by address 0 (40_djb2_hash_engine.md R69). -/
theorem wrapAddress_after_top (p : Platform) {n : Nat} (h : n = p.space - 1) : wrapAddress p (n + 1) = 0 := by
  have hnext : n + 1 = p.space := by
    have := Platform.space_pos p
    omega
  rw [wrapAddress, hnext, Nat.mod_self]
  rfl

theorem exec_absorb_of_busy {s : State} (c : Byte) (h : s.st = .busy) :
    exec (.absorb c) s = .next (absorbByte c s) :=
  whenBusy_next.2 ⟨h, rfl⟩

/-- Settles O20: the one next state is `absorbByte c s`, whose registers are reduced by the recurrence, by the
8-bit counter and by the address space; at the top address the reduction gives 0. -/
theorem absorbUpdatesHashLengthAndPointer : Obligations.AbsorbUpdatesHashLengthAndPointer := by
  unfold Obligations.AbsorbUpdatesHashLengthAndPointer
  intro s c hbusy
  refine ⟨absorbByte c s, exec_absorb_of_busy c hbusy, ?acc, ?len, ?ptr, ?wrap, ?mem, ?consumed, ?frame⟩
  case acc => exact djb2Step_toNat s.acc c
  case len => exact BitVec.toNat_ofNat _ _
  case ptr => exact wrapAddress_toNat s.platform _
  case wrap => exact fun htop => wrapAddress_after_top s.platform htop
  case mem => exact fun a => by rw [absorbByte_mem]
  case consumed => exact absorbByte_consumed c s
  case frame => rfl

/-! ### START -/

/-- The two presentations of START, the command and the WR_CTRL of its command word, are INIT outside BUSY and
nothing in BUSY (42_host_interface.md R94 to R96). -/
theorem exec_start_eq {i : Instr} (hi : i = .start ∨ i = .wrCtrl 0x00000003) (s : State) :
    exec i s = .next (if s.st = .busy then s else init s) := by
  have hstart : exec .start s = .next (if s.st = .busy then s else init s) := unlessBusy_eq s init
  rcases hi with rfl | rfl
  · exact hstart
  · calc exec (.wrCtrl 0x00000003) s
      _ = exec (decodeCommand 0x00000003).toInstr s := execWrCtrl_toInstr 0x00000003 s
      _ = exec .start s := rfl
      _ = _ := hstart

/-- The host that reads STATUS after an accepted START sees BUSY and no error (10_state.md R22). -/
theorem statusWord_init (s : State) : statusWord (init s) = 0x00000001 := by
  rw [statusWord, init_errCode, init_st]
  rfl

/-- Settles O15: outside BUSY the next state is `init s`, and each of its registers is what INIT gives it; in
BUSY the state is kept. -/
theorem startInitialisesOrIsIgnored : Obligations.StartInitialisesOrIsIgnored := by
  unfold Obligations.StartInitialisesOrIsIgnored
  intro s i hi
  constructor
  · intro hidle
    have hnext : exec i s = .next (init s) := by rw [exec_start_eq hi, if_neg hidle]
    exact ⟨init s, hnext, init_acc s, init_len s, startAddress_toNat s, init_errCode s, init_st s,
      statusWord_init s, init_runStart s, init_changed s, init_consumed s, fun a => by rw [init_mem], rfl⟩
  · intro hbusy
    rw [exec_start_eq hi, if_pos hbusy]

end Sys2Proof.Machine
end

section
/-! The hash and length packer (41_hash_length_packer.md): PACK as a concatenation of its two fields (R80, R81),
and the widths that it does not show (R86, R87). -/

namespace Sys2Proof.Machine

/-! ### The two fields of the packed word -/

/-- The low byte of the count, as the rule's mask takes it (41_hash_length_packer.md R80). -/
theorem and_lenMask (n : Nat) : n &&& lenMask = n % 2 ^ 8 := Nat.and_two_pow_sub_one_eq_mod n 8

/-- The length field stands above 24 zero bits (41_hash_length_packer.md R80). -/
theorem lengthShifted_eq_append (n : Nat) : lengthShifted n = BitVec.ofNat 8 n ++ 0#24 := by
  apply BitVec.eq_of_toNat_eq
  rw [lengthShifted, and_lenMask, lenShift, BitVec.toNat_shiftLeft, BitVec.toNat_append]
  simp only [BitVec.toNat_ofNat, Nat.shiftLeft_eq, Nat.zero_mod, Nat.or_zero]
  omega

/-- The hash field stands below 8 zero bits, for an accumulator of any width (41_hash_length_packer.md R81). -/
theorem maskedHash_eq_append {w : Nat} (h : BitVec w) : maskedHash h = 0#8 ++ h.setWidth 24 := by
  apply BitVec.eq_of_toNat_eq
  calc (maskedHash h).toNat
    _ = h.toNat % 2 ^ 32 &&& 2 ^ 24 - 1 := by rw [maskedHash, BitVec.toNat_and, BitVec.toNat_setWidth]; rfl
    _ = h.toNat % 2 ^ 32 % 2 ^ 24 := Nat.and_two_pow_sub_one_eq_mod _ 24
    _ = h.toNat % 2 ^ 24 := Nat.mod_mod_of_dvd _ (Nat.pow_dvd_pow 2 (by decide))
    _ = (0#8 ++ h.setWidth 24).toNat := by
      rw [BitVec.toNat_append, BitVec.toNat_setWidth, BitVec.toNat_zero, Nat.zero_shiftLeft, Nat.zero_or]

/-- Each field meets the other's zeros, so the OR is a concatenation (41_hash_length_packer.md R81). -/
theorem pack_eq_append {w : Nat} (h : BitVec w) (n : Nat) : pack h n = BitVec.ofNat 8 n ++ h.setWidth 24 := by
  rw [pack, maskedHash_eq_append, lengthShifted_eq_append, BitVec.or_append, BitVec.zero_or, BitVec.or_zero]

theorem maskedHash_and_lengthShifted {w : Nat} (h : BitVec w) (n : Nat) :
    maskedHash h &&& lengthShifted n = 0 := by
  rw [maskedHash_eq_append, lengthShifted_eq_append, BitVec.and_append, BitVec.zero_and, BitVec.and_zero,
    BitVec.zero_append_zero]
  rfl

/-- Settles O12: both operands of the OR are concatenations with zeros, from which the fields, the disjointness
and the packed word are read off. -/
theorem packIsLengthByteAboveHash : Obligations.PackIsLengthByteAboveHash := by
  unfold Obligations.PackIsLengthByteAboveHash
  intro w h n
  refine ⟨?lengthField, ?zerosBelow, maskedHash_and_lengthShifted h n, pack_eq_append h n⟩
  case lengthField => rw [lengthShifted_eq_append, BitVec.extractLsb'_append_eq_left]
  case zerosBelow => rw [lengthShifted_eq_append, BitVec.extractLsb'_append_eq_right]; rfl

/-! ### The width laws -/

/-- A step of the recurrence may be taken before or after the accumulator is cut to fewer bits
(41_hash_length_packer.md R86). -/
theorem djb2Step_setWidth {v w : Nat} (hvw : v ≤ w) (h : BitVec w) (c : Byte) :
    (djb2Step h c).setWidth v = djb2Step (h.setWidth v) c := by
  have hdvd : 2 ^ v ∣ 2 ^ w := Nat.pow_dvd_pow 2 hvw
  have hcut : h.toNat % 2 ^ v ≡ h.toNat [MOD 2 ^ v] := Nat.mod_modEq _ _
  apply BitVec.eq_of_toNat_eq
  calc ((djb2Step h c).setWidth v).toNat
    _ = (h.toNat * 33 + c.toNat) % 2 ^ w % 2 ^ v := by rw [BitVec.toNat_setWidth, djb2Step_toNat]
    _ = (h.toNat * 33 + c.toNat) % 2 ^ v := Nat.mod_mod_of_dvd _ hdvd
    _ = (h.toNat % 2 ^ v * 33 + c.toNat) % 2 ^ v := ((hcut.mul_right 33).add_right c.toNat).symm
    _ = (djb2Step (h.setWidth v) c).toNat := by rw [djb2Step_toNat, BitVec.toNat_setWidth]

/-- The fold over a string from any accumulator keeps the low bits apart from the rest
(41_hash_length_packer.md R86). -/
theorem foldl_djb2Step_setWidth {v w : Nat} (hvw : v ≤ w) (s : List Byte) (h : BitVec w) :
    (s.foldl djb2Step h).setWidth v = s.foldl djb2Step (h.setWidth v) := by
  induction s generalizing h with
  | nil => rfl
  | cons c s ih => rw [List.foldl_cons, List.foldl_cons, ih, djb2Step_setWidth hvw]

theorem djb2_setWidth {v w : Nat} (hvw : v ≤ w) (s : List Byte) : (djb2 w s).setWidth v = djb2 v s := by
  rw [djb2, foldl_djb2Step_setWidth hvw, BitVec.setWidth_ofNat_of_le hvw, djb2]

/-- A counter of at least 8 bits keeps the byte that PACK takes (41_hash_length_packer.md R87). -/
theorem mod_two_pow_and_lenMask {l : Nat} (hl : 8 ≤ l) (n : Nat) : n % 2 ^ l &&& lenMask = n &&& lenMask := by
  rw [and_lenMask, and_lenMask, Nat.mod_mod_of_dvd n (Nat.pow_dvd_pow 2 hl)]

/-- Accumulators that agree in their low 24 bits and counts that agree in their low byte pack to one word. -/
theorem pack_congr {v w : Nat} {g : BitVec v} {h : BitVec w} {m n : Nat}
    (hhash : g.setWidth 24 = h.setWidth 24) (hlen : m &&& lenMask = n &&& lenMask) : pack g m = pack h n := by
  have hmasked : maskedHash g = maskedHash h := by rw [maskedHash_eq_append, maskedHash_eq_append, hhash]
  rw [pack, pack, hmasked, lengthShifted, lengthShifted, hlen]

/-- The packed value of a string at any legal widths of accumulator and counter (41_hash_length_packer.md R88). -/
theorem pack_djb2_eq_compute {w l : Nat} (hw : 24 ≤ w) (hl : 8 ≤ l) (s : List Byte) :
    pack (djb2 w s) (s.length % 2 ^ l) = compute s := by
  have hhash : (djb2 w s).setWidth 24 = (djb2 32 s).setWidth 24 := by
    rw [djb2_setWidth hw, djb2_setWidth (by decide)]
  exact pack_congr hhash (mod_two_pow_and_lenMask hl s.length)

/-- Settles O13: the recurrence commutes with the cut to 24 bits at a step and so over a string, the count's low
byte outlives the counter's reduction, and PACK takes nothing else. -/
theorem packedResultIsIndependentOfWidths : Obligations.PackedResultIsIndependentOfWidths := by
  unfold Obligations.PackedResultIsIndependentOfWidths
  intro w hw
  exact ⟨djb2Step_setWidth hw, djb2_setWidth hw, fun _ n hl => mod_two_pow_and_lenMask hl n,
    fun _ s hl => pack_djb2_eq_compute hw hl s⟩

end Sys2Proof.Machine
end

section
/-! The other commands of the CTRL port (42_host_interface.md section 1): NOP (R93), START_ABSENT (R97), and the two
start commands that BUSY ignores (R96). -/

namespace Sys2Proof.Machine

/-- A WR_CTRL performs its word's command within the same step (42_host_interface.md R94). -/
theorem exec_wrCtrl_of_decodeCommand {w : Word} {c : Command} (h : decodeCommand w = c) (s : State) :
    exec (.wrCtrl w) s = exec c.toInstr s := by
  subst h
  exact execWrCtrl_toInstr w s

/-! ### NOP -/

theorem exec_nop (a : Bool) (s : State) : exec (.nop a) s = .next s := rfl

/-- Settles O14: the two words decode to NOP with ARG_PRESENT clear and set, and NOP keeps the state. -/
theorem nopChangesNothing : Obligations.NopChangesNothing := by
  unfold Obligations.NopChangesNothing
  intro s a
  have hclear : decodeCommand 0x00000000 = .nop false := rfl
  have hset : decodeCommand 0x00000002 = .nop true := rfl
  refine ⟨exec_nop a s, ?_, ?_⟩
  · exact (exec_wrCtrl_of_decodeCommand hclear s).trans (exec_nop false s)
  · exact (exec_wrCtrl_of_decodeCommand hset s).trans (exec_nop true s)

/-! ### START_ABSENT -/

/-- The two presentations of START_ABSENT, the command and the WR_CTRL of its command word, raise InvalidInput
outside BUSY and do nothing in BUSY (42_host_interface.md R96, R97). -/
theorem exec_startAbsent_eq {i : Instr} (hi : i = .startAbsent ∨ i = .wrCtrl 0x00000001) (s : State) :
    exec i s = .next (if s.st = .busy then s else raiseInvalidInput s) := by
  have habsent : exec .startAbsent s = .next (if s.st = .busy then s else raiseInvalidInput s) :=
    unlessBusy_eq s raiseInvalidInput
  have hword : decodeCommand 0x00000001 = .startAbsent := rfl
  rcases hi with rfl | rfl
  · exact habsent
  · exact (exec_wrCtrl_of_decodeCommand hword s).trans habsent

/-- The host that reads STATUS after InvalidInput sees ERROR and the code 1 (60_exceptions.md R116). -/
theorem statusWord_raiseInvalidInput (s : State) : statusWord (raiseInvalidInput s) = 0x00000103 := by
  rw [statusWord, raiseInvalidInput_errCode, raiseInvalidInput_st]
  rfl

/-- Settles O16: outside BUSY the next state is `raiseInvalidInput s`, which writes ERR_CODE and STATE only; in
BUSY the state is kept. -/
theorem startAbsentRaisesInvalidInputOrIsIgnored : Obligations.StartAbsentRaisesInvalidInputOrIsIgnored := by
  unfold Obligations.StartAbsentRaisesInvalidInputOrIsIgnored
  intro s i hi
  constructor
  · intro hidle
    have hnext : exec i s = .next (raiseInvalidInput s) := by rw [exec_startAbsent_eq hi, if_neg hidle]
    exact ⟨raiseInvalidInput s, hnext, raiseInvalidInput_errCode s, raiseInvalidInput_st s,
      statusWord_raiseInvalidInput s, fun a => by rw [raiseInvalidInput_mem], rfl⟩
  · intro hbusy
    rw [exec_startAbsent_eq hi, if_pos hbusy]

/-- Settles O17: the BUSY branch of both start commands. -/
theorem startWhileBusyIsLost : Obligations.StartWhileBusyIsLost := by
  unfold Obligations.StartWhileBusyIsLost
  intro s hbusy
  constructor
  · rw [exec_start_eq (.inr rfl), if_pos hbusy]
  · rw [exec_startAbsent_eq (.inr rfl), if_pos hbusy]

end Sys2Proof.Machine
end

section
/-! The register transactions (42_host_interface.md sections 2 and 3): what each read returns (R98 to R102) and
what each write but WR_CTRL leaves (R103, R104). -/

namespace Sys2Proof.Machine

open Sys2Proof.Config

/-! ### The meaning of each transaction -/

theorem exec_rdCtrl (s : State) : exec .rdCtrl s = .next (returnData 0x00000000 s) := rfl

theorem exec_rdStatus (s : State) : exec .rdStatus s = .next (returnData (statusWord s) s) := rfl

theorem exec_rdBase (s : State) : exec .rdBase s = .next (returnData (baseRead s) s) := rfl

theorem exec_rdResult (s : State) : exec .rdResult s = .next (returnData s.result s) := rfl

theorem exec_wrStatus (v : Word) (s : State) : exec (.wrStatus v) s = .next s := rfl

theorem exec_wrBase (v : Word) (s : State) : exec (.wrBase v) s = .next (writeBase v s) := rfl

theorem exec_wrResult (v : Word) (s : State) : exec (.wrResult v) s = .next s := rfl

/-- Settles O25: both reads return their value and write the returned DATA only. -/
theorem ctrlReadsZeroAndResultReadsBack : Obligations.CtrlReadsZeroAndResultReadsBack := by
  unfold Obligations.CtrlReadsZeroAndResultReadsBack
  exact fun s => ⟨exec_rdCtrl s, exec_rdResult s⟩

/-- Settles O29: neither write has an effect. -/
theorem writesToReadOnlyRegistersAreDiscarded : Obligations.WritesToReadOnlyRegistersAreDiscarded := by
  unfold Obligations.WritesToReadOnlyRegistersAreDiscarded
  exact fun s v => ⟨exec_wrStatus v s, exec_wrResult v s⟩

/-! ### STATUS -/

/-- The 16 bits of the status view stand below 16 zero bits (10_state.md R22). -/
theorem statusWord_eq_append (s : State) :
    statusWord s = 0#16 ++ (s.errCode ++ 0b000000#6 ++ s.st.code) :=
  BitVec.setWidth_eq_append (by decide)

/-- Bits 1:0 of STATUS (42_host_interface.md R100). -/
theorem statusWord_stateField (s : State) : (statusWord s).extractLsb' 0 2 = s.st.code := by
  rw [statusWord_eq_append, BitVec.extractLsb'_append_eq_of_add_le (by decide),
    BitVec.extractLsb'_append_eq_right]

/-- Bits 7:2 of STATUS. -/
theorem statusWord_gapField (s : State) : (statusWord s).extractLsb' 2 6 = 0 := by
  rw [statusWord_eq_append, BitVec.extractLsb'_append_eq_of_add_le (by decide),
    BitVec.extractLsb'_append_eq_of_le (by decide), BitVec.extractLsb'_append_eq_right]
  rfl

/-- Bits 15:8 of STATUS. -/
theorem statusWord_errCodeField (s : State) : (statusWord s).extractLsb' 8 8 = s.errCode := by
  rw [statusWord_eq_append, BitVec.extractLsb'_append_eq_of_add_le (by decide),
    BitVec.extractLsb'_append_eq_of_le (by decide), BitVec.extractLsb'_append_eq_left]

/-- Bits 31:16 of STATUS. -/
theorem statusWord_topField (s : State) : (statusWord s).extractLsb' 16 16 = 0 := by
  rw [statusWord_eq_append, BitVec.extractLsb'_append_eq_left]
  rfl

/-- Settles O26: the fields of the status view are read off its concatenation; the standing invariant fixes
ERR_CODE by STATE, and with it the whole word. -/
theorem statusReadShowsStateAndErrorCode : Obligations.StatusReadShowsStateAndErrorCode := by
  unfold Obligations.StatusReadShowsStateAndErrorCode
  intro s
  refine ⟨returnData (statusWord s) s, exec_rdStatus s, rfl, ?state, ?gap, ?errCode, ?top, ?values⟩
  all_goals rw [returnData_rdData]
  case state =>
    rw [statusWord_stateField]
    cases s.st <;> rfl
  case gap => exact statusWord_gapField s
  case errCode => exact statusWord_errCodeField s
  case top => exact statusWord_topField s
  case values =>
    intro hinv
    rw [statusWord, hinv.errCode]
    cases s.st <;> rfl

/-! ### BASE -/

/-- Settles O27: the register mask is reduction modulo `2^ADDR_W`. -/
theorem baseReadReturnsAddressBits : Obligations.BaseReadReturnsAddressBits := by
  unfold Obligations.BaseReadReturnsAddressBits
  exact fun s => ⟨returnData (baseRead s) s, exec_rdBase s, rfl, baseRead_toNat s⟩

/-- A BASE that holds an address is read back whole (10_state.md R19). -/
theorem baseRead_of_lt {s : State} (h : s.base.toNat < s.platform.space) : baseRead s = s.base := by
  apply BitVec.eq_of_toNat_eq
  rw [baseRead_toNat, Nat.mod_eq_of_lt h]

theorem baseWritten_lt (p : Platform) (v : Word) : (baseWritten p v).toNat < p.space := by
  rw [baseWritten_toNat]
  exact Nat.mod_lt _ (Platform.space_pos p)

/-- Settles O28: the write leaves an address in BASE and nothing else changes; a BASE that holds an address is
what a read returns. -/
theorem baseWriteKeepsAddressBitsAndReadsBack : Obligations.BaseWriteKeepsAddressBitsAndReadsBack := by
  unfold Obligations.BaseWriteKeepsAddressBitsAndReadsBack
  intro s v
  refine ⟨writeBase v s, exec_wrBase v s, baseWritten_toNat s.platform v, rfl, fun a => by rw [writeBase_mem], ?_⟩
  have hread : baseRead (writeBase v s) = (writeBase v s).base := baseRead_of_lt (baseWritten_lt s.platform v)
  rw [exec_rdBase, hread]
  rfl

end Sys2Proof.Machine
end

section
/-! The line printed on success (42_host_interface.md R107): the model's eight digits, taken from the word's
nibbles, are the number's hexadecimal digits padded with zeros. -/

namespace Sys2Proof.Machine

/-! ### Padded digits of a number -/

/-- Padding on the left does not look at the last character. -/
theorem leftpad_succ_concat {α : Type} (k : Nat) (a c : α) (l : List α) :
    List.leftpad (k + 1) a (l ++ [c]) = List.leftpad k a l ++ [c] := by
  simp [List.leftpad]

/-- The last of at least two padded digits is the remainder, and those before it are the quotient's; a quotient
of zero is all padding. -/
theorem leftpad_toDigits_succ {b : Nat} (hb : 1 < b) {k : Nat} (hk : 0 < k) (n : Nat) :
    List.leftpad (k + 1) '0' (Nat.toDigits b n) =
      List.leftpad k '0' (Nat.toDigits b (n / b)) ++ [Nat.digitChar (n % b)] := by
  rcases Nat.lt_or_ge n b with hlt | hge
  · have hzero : List.leftpad k '0' ['0'] = List.leftpad k '0' [] := by
      obtain ⟨j, rfl⟩ : ∃ j, k = j + 1 := ⟨k - 1, by omega⟩
      simp [List.leftpad, List.replicate_succ']
    rw [Nat.toDigits_of_lt_base hlt, Nat.div_eq_of_lt hlt, Nat.mod_eq_of_lt hlt, Nat.toDigits_zero, hzero]
    exact leftpad_succ_concat k '0' (Nat.digitChar n) []
  · rw [Nat.toDigits_of_base_le hb hge, leftpad_succ_concat]

/-- The `k + 1` padded digits of a number that fits them, highest place first. -/
theorem leftpad_toDigits_eq_map {b : Nat} (hb : 1 < b) (k : Nat) {n : Nat} (hn : n < b ^ (k + 1)) :
    List.leftpad (k + 1) '0' (Nat.toDigits b n) =
      (List.range (k + 1)).reverse.map fun j => Nat.digitChar (n / b ^ j % b) := by
  induction k generalizing n with
  | zero =>
    have hlt : n < b := by simpa using hn
    simp [Nat.toDigits_of_lt_base hlt, Nat.mod_eq_of_lt hlt, List.leftpad]
  | succ k ih =>
    have hquot : n / b < b ^ (k + 1) := Nat.div_lt_of_lt_mul (by rwa [← Nat.pow_succ'])
    rw [leftpad_toDigits_succ hb k.succ_pos, ih hquot, List.range_succ_eq_map (n := k + 1)]
    simp [Nat.div_div_eq_div_mul, Nat.pow_succ', Function.comp_def]

/-! ### The model's digits -/

/-- The model's digit table is the library's, below 16. -/
theorem hexDigit_eq_digitChar : ∀ n < 16, hexDigit n = Nat.digitChar n := by decide

/-- A nibble of a word is its digit in base 16. -/
theorem nibble_toNat (w : Word) (k : Nat) : (w.extractLsb' (4 * k) 4).toNat = w.toNat / 16 ^ k % 16 := by
  rw [BitVec.extractLsb'_toNat, Nat.shiftRight_eq_div_pow, Nat.pow_mul]

theorem hex8_eq_leftpad_toDigits (w : Word) : hex8 w = List.leftpad 8 '0' (Nat.toDigits 16 w.toNat) := by
  have hplaces : [7, 6, 5, 4, 3, 2, 1, 0] = (List.range 8).reverse := by decide
  have hdigit : ∀ k, hexDigit (w.extractLsb' (4 * k) 4).toNat = Nat.digitChar (w.toNat / 16 ^ k % 16) := by
    intro k
    rw [nibble_toNat, hexDigit_eq_digitChar _ (Nat.mod_lt _ (by decide))]
  rw [leftpad_toDigits_eq_map (by decide) 7 w.isLt, hex8, hplaces]
  exact List.map_congr_left fun k _ => hdigit k

/-- Settles O51: the exit status is 0 by the contract, and the line's digits are the padded hexadecimal digits. -/
theorem successPrintsEightHexDigits : Obligations.SuccessPrintsEightHexDigits := by
  unfold Obligations.SuccessPrintsEightHexDigits
  intro r
  refine ⟨rfl, ?_⟩
  rw [← hex8_eq_leftpad_toDigits]
  rfl

end Sys2Proof.Machine
end

section
/-! Status after an accepted START (70_reset_and_hazards.md R138): what one engine turn and then a run of engine
turns leave of STATE and ERR_CODE, and so what the next RD_STATUS returns. -/

namespace Sys2Proof.Machine

/-! ### One engine turn -/

theorem exec_finalize_of_busy {s : State} (h : s.st = .busy) : exec .finalize s = .next (finalizeRun s) :=
  whenBusy_next.2 ⟨h, rfl⟩

/-- The engine's next instruction is FINALIZE or an ABSORB, and only in BUSY (40_djb2_hash_engine.md R65,
30_encoding.md R58). -/
theorem engineInstr_cases {s : State} {i : Instr} (h : engineInstr s = some i) :
    s.st = .busy ∧ (i = .finalize ∨ ∃ c, i = .absorb c) := by
  obtain ⟨hbusy, -, rfl⟩ := engineInstr_some.1 h
  refine ⟨hbusy, ?_⟩
  unfold decodeByte
  split
  · exact .inl rfl
  · exact .inr ⟨_, rfl⟩

/-- An engine turn keeps the pending events and ERR_CODE, and moves STATE only by FINALIZE, to DONE. -/
theorem turn_engine_status {s t : State} (h : turn .engine s = .next t) :
    t.events = s.events ∧ t.errCode = s.errCode ∧
      t.st = if engineInstr s = some .finalize then .done else s.st := by
  cases hi : engineInstr s with
  | none =>
    have hkept : turn .engine s = .next s := by simp only [turn, hi]
    cases hkept.symm.trans h
    simp
  | some i =>
    rw [turn_engine_of_some hi] at h
    obtain ⟨hbusy, rfl | ⟨c, rfl⟩⟩ := engineInstr_cases hi
    · cases (exec_finalize_of_busy hbusy).symm.trans h
      simp
    · cases (exec_absorb_of_busy c hbusy).symm.trans h
      simp

/-- A step whose oldest event is an engine turn takes that event and does what the turn does. -/
theorem step_engine_status {s t : State} {es : List Event} (hev : s.events = .engine :: es)
    (h : step s = .next t) :
    t.events = es ∧ t.errCode = s.errCode ∧ t.st = if engineInstr s = some .finalize then .done else s.st := by
  have hturn : turn .engine (setEvents es s) = .next t := by simpa only [step, hev] using h
  exact turn_engine_status hturn

/-! ### A run of engine turns -/

/-- A FINALIZE is the engine's instruction before one of the next `k` steps. -/
def FinalizeWithin (k : Nat) (s : State) : Prop :=
  ∃ j < k, ∃ w, steps j s = .next w ∧ engineInstr w = some .finalize

theorem not_finalizeWithin_zero (s : State) : ¬ FinalizeWithin 0 s := fun ⟨j, hj, _⟩ => Nat.not_lt_zero j hj

/-- The FINALIZE is before the first step or within the rest. -/
theorem finalizeWithin_succ {k : Nat} {s t : State} (h : step s = .next t) :
    FinalizeWithin (k + 1) s ↔ engineInstr s = some .finalize ∨ FinalizeWithin k t := by
  constructor
  · rintro ⟨j, hj, w, hw, hi⟩
    cases j with
    | zero =>
      cases hw
      exact .inl hi
    | succ j =>
      rw [steps_succ_of_next j h] at hw
      exact .inr ⟨j, Nat.lt_of_succ_lt_succ hj, w, hw, hi⟩
  · rintro (hi | ⟨j, hj, w, hw, hi⟩)
    · exact ⟨0, k.succ_pos, s, steps_zero s, hi⟩
    · exact ⟨j + 1, Nat.succ_lt_succ hj, w, by rw [steps_succ_of_next j h, hw], hi⟩

/-- Engine turns keep ERR_CODE; STATE is DONE once a FINALIZE is among them, and is kept where none is. -/
theorem steps_engine_status {k : Nat} {s u : State} (hev : s.events = List.replicate k .engine)
    (h : steps k s = .next u) :
    u.errCode = s.errCode ∧ (FinalizeWithin k s → u.st = .done) ∧ (¬ FinalizeWithin k s → u.st = s.st) := by
  induction k generalizing s with
  | zero =>
    cases h
    exact ⟨rfl, fun hf => absurd hf (not_finalizeWithin_zero _), fun _ => rfl⟩
  | succ k ih =>
    obtain ⟨t, hstep, hrest⟩ := steps_succ_next h
    obtain ⟨htev, hterr, htst⟩ := step_engine_status hev hstep
    obtain ⟨huerr, hdone, hkept⟩ := ih htev hrest
    rw [finalizeWithin_succ hstep]
    refine ⟨huerr.trans hterr, ?taken, ?notTaken⟩
    case taken =>
      intro hfirstOrRest
      by_cases hf : FinalizeWithin k t
      · exact hdone hf
      · rw [hkept hf, htst, if_pos (hfirstOrRest.resolve_right hf)]
    case notTaken =>
      intro hnone
      obtain ⟨hi, hf⟩ := not_or.1 hnone
      rw [hkept hf, htst, if_neg hi]

/-! ### The status read -/

/-- Without an error STATUS is the code of STATE (10_state.md R17, R22). -/
theorem statusWord_of_errCode_zero {s : State} (h : s.errCode = 0) :
    statusWord s = s.st.code.setWidth 32 := by
  rw [statusWord, h]
  cases s.st <;> rfl

/-- Settles O48: INIT leaves BUSY and no error; of the engine turns after it only a FINALIZE moves STATE, to DONE,
and none sets ERR_CODE. -/
theorem statusAfterStartIsNeverStale : Obligations.StatusAfterStartIsNeverStale := by
  unfold Obligations.StatusAfterStartIsNeverStale
  intro s t u i k hi hidle hstart hrun
  rw [exec_start_eq hi, if_neg hidle] at hstart
  obtain rfl := Host.Outcome.next.inj hstart
  obtain ⟨herr, hdone, hkept⟩ := steps_engine_status rfl hrun
  have hstatus : statusWord u = u.st.code.setWidth 32 := statusWord_of_errCode_zero herr
  refine ⟨returnData (statusWord u) u, exec_rdStatus u, ?_⟩
  change _ ∧ (_ ↔ FinalizeWithin k (setEvents (List.replicate k .engine) (init s)))
  rw [returnData_rdData, hstatus]
  by_cases hf : FinalizeWithin k (setEvents (List.replicate k .engine) (init s))
  · rw [hdone hf]
    exact ⟨.inr rfl, iff_of_true rfl hf⟩
  · rw [hkept hf, setEvents_st, init_st]
    exact ⟨.inl rfl, iff_of_false (by decide) hf⟩

end Sys2Proof.Machine
end

section
/-! Decode and encode agree (30_encoding.md): a word and its byte lanes (20_memory.md R43), then the instructions of
each port. -/

namespace Sys2Proof

/-! ### A word and its byte lanes -/

theorem lane_toNat (w : Word) (j : Nat) : (lane w j).toNat = w.toNat / 2 ^ (8 * j) % 256 := by
  rw [lane, BitVec.extractLsb'_toNat, Nat.shiftRight_eq_div_pow]

/-- Little-endian: lane `j` counts `256 ^ j` (20_memory.md R43). -/
theorem bytesWord_toNat (b0 b1 b2 b3 : Byte) :
    (bytesWord b0 b1 b2 b3).toNat = b0.toNat + 256 * (b1.toNat + 256 * (b2.toNat + 256 * b3.toNat)) := by
  have h0 := b0.isLt
  have h1 := b1.isLt
  have h2 := b2.isLt
  rw [bytesWord, BitVec.toNat_append, BitVec.toNat_append, BitVec.toNat_append,
    ← Nat.shiftLeft_add_eq_or_of_lt h0, ← Nat.shiftLeft_add_eq_or_of_lt h1, ← Nat.shiftLeft_add_eq_or_of_lt h2]
  simp only [Nat.shiftLeft_eq]
  omega

theorem bytesWord_lanes (w : Word) : bytesWord (lane w 0) (lane w 1) (lane w 2) (lane w 3) = w := by
  apply BitVec.eq_of_toNat_eq
  simp only [bytesWord_toNat, lane_toNat]
  omega

theorem wordBytes_bytesWord (b0 b1 b2 b3 : Byte) : wordBytes (bytesWord b0 b1 b2 b3) = [b0, b1, b2, b3] := by
  have h0 := b0.isLt
  have h1 := b1.isLt
  have h2 := b2.isLt
  have h3 := b3.isLt
  simp only [wordBytes, List.cons.injEq, ← BitVec.toNat_inj, lane_toNat, bytesWord_toNat, and_true]
  omega

/-! ### Decoding an encoding -/

theorem decode_ctrl_wordBytes (w : Word) : decode .ctrl (wordBytes w) = .ok (decodeCtrl w) := by
  rw [wordBytes, decode, bytesWord_lanes]

/-- Three bits in a byte leave its other five clear (30_encoding.md R55). -/
theorem selector_fits : ∀ sel : Sel, (sel.setWidth 8).extractLsb' 3 5 = 0 ∧ (sel.setWidth 8).setWidth 3 = sel := by
  decide

theorem decode_hostTx_encodeHostTx (sel : Sel) (data : Word) :
    decode .hostTx (encodeHostTx sel data) = .ok (decodeHostTx sel data) := by
  obtain ⟨htop, hlow⟩ := selector_fits sel
  rw [encodeHostTx, wordBytes, decode, if_neg (not_not_intro htop), hlow, bytesWord_lanes]

/-- Settles O1: each instruction's bytes are those of a word or of a selector with DATA, which the port's decoder
puts together again; the two constraints of the table keep the remaining decode apart. -/
theorem decodeAfterEncodeGivesInstruction : Obligations.DecodeAfterEncodeGivesInstruction := by
  unfold Obligations.DecodeAfterEncodeGivesInstruction
  intro i hwf
  cases i with
  | nop a => cases a <;> exact decode_ctrl_wordBytes _
  | start => exact decode_ctrl_wordBytes _
  | startAbsent => exact decode_ctrl_wordBytes _
  | reservedCtrl w =>
    have hfield : w.extractLsb' 2 30 ≠ 0 := by simpa [Instr.wellFormed] using hwf
    calc decode .ctrl (wordBytes w)
      _ = .ok (decodeCtrl w) := decode_ctrl_wordBytes w
      _ = .ok (.reservedCtrl w) := by rw [decodeCtrl_of_reservedField hfield]
  | absorb c =>
    have hc : c ≠ 0 := by simpa [Instr.wellFormed] using hwf
    exact congrArg Except.ok (if_neg hc)
  | finalize => rfl
  | rdCtrl => exact decode_hostTx_encodeHostTx 0b000 0
  | rdStatus => exact decode_hostTx_encodeHostTx 0b001 0
  | rdBase => exact decode_hostTx_encodeHostTx 0b010 0
  | rdResult => exact decode_hostTx_encodeHostTx 0b011 0
  | wrCtrl data => exact decode_hostTx_encodeHostTx 0b100 data
  | wrStatus data => exact decode_hostTx_encodeHostTx 0b101 data
  | wrBase data => exact decode_hostTx_encodeHostTx 0b110 data
  | wrResult data => exact decode_hostTx_encodeHostTx 0b111 data

/-! ### Encoding what was decoded -/

/-- The bits above GO and ARG_PRESENT are clear in the four words below 4 (30_encoding.md R53). -/
theorem reservedField_eq_zero_iff {w : Word} : w.extractLsb' 2 30 = 0 ↔ w.toNat < 4 := by
  have hlt := w.isLt
  rw [← BitVec.toNat_inj, BitVec.extractLsb'_toNat, Nat.shiftRight_eq_div_pow]
  change w.toNat / 4 % 2 ^ 30 = 0 ↔ _
  omega

/-- A command word is reserved or one of four (30_encoding.md R57). -/
theorem commandWord_cases (w : Word) :
    (w.extractLsb' 2 30 ≠ 0 ∧ 4 ≤ w.toNat) ∨ w = 0 ∨ w = 1 ∨ w = 2 ∨ w = 3 := by
  by_cases hfield : w.extractLsb' 2 30 = 0
  · have hlt := reservedField_eq_zero_iff.1 hfield
    have hvalue : w.toNat = 0 ∨ w.toNat = 1 ∨ w.toNat = 2 ∨ w.toNat = 3 := by omega
    exact .inr (hvalue.imp BitVec.eq_of_toNat_eq
      (Or.imp BitVec.eq_of_toNat_eq (Or.imp BitVec.eq_of_toNat_eq BitVec.eq_of_toNat_eq)))
  · exact .inl ⟨hfield, Nat.le_of_not_lt (mt reservedField_eq_zero_iff.2 hfield)⟩

/-- Every command word is a well-formed command and the word that encodes it. -/
theorem decodeCtrl_spec (w : Word) :
    (decodeCtrl w).wellFormed = true ∧ (decodeCtrl w).port = .ctrl ∧ encode (decodeCtrl w) = wordBytes w := by
  rcases commandWord_cases w with ⟨hfield, -⟩ | rfl | rfl | rfl | rfl
  · rw [decodeCtrl_of_reservedField hfield]
    exact ⟨bne_iff_ne.2 hfield, rfl, rfl⟩
  all_goals exact ⟨rfl, rfl, rfl⟩

/-- Every input byte is a well-formed engine step and its own encoding. -/
theorem decodeByte_spec (b : Byte) :
    (decodeByte b).wellFormed = true ∧ (decodeByte b).port = .byte ∧ encode (decodeByte b) = [b] := by
  by_cases hb : b = 0
  · subst hb
    exact ⟨rfl, rfl, rfl⟩
  · rw [decodeByte, if_neg hb]
    exact ⟨bne_iff_ne.2 hb, rfl, rfl⟩

/-- The four transactions that drive no DATA (30_encoding.md R55). -/
abbrev IsRead (i : Instr) : Prop := i = .rdCtrl ∨ i = .rdStatus ∨ i = .rdBase ∨ i = .rdResult

theorem selector_cases : ∀ sel : Sel, sel = 0b000 ∨ sel = 0b001 ∨ sel = 0b010 ∨ sel = 0b011 ∨
    sel = 0b100 ∨ sel = 0b101 ∨ sel = 0b110 ∨ sel = 0b111 := by decide

/-- Every selector with DATA is a well-formed transaction; its encoding has the selector and, of a write, DATA. -/
theorem decodeHostTx_spec (data : Word) (sel : Sel) :
    (decodeHostTx sel data).wellFormed = true ∧ (decodeHostTx sel data).port = .hostTx ∧
      (encode (decodeHostTx sel data) = encodeHostTx sel data ∨
        IsRead (decodeHostTx sel data) ∧ (encode (decodeHostTx sel data)).head? = some (sel.setWidth 8)) := by
  rcases selector_cases sel with rfl | rfl | rfl | rfl | rfl | rfl | rfl | rfl
  · exact ⟨rfl, rfl, .inr ⟨.inl rfl, rfl⟩⟩
  · exact ⟨rfl, rfl, .inr ⟨.inr (.inl rfl), rfl⟩⟩
  · exact ⟨rfl, rfl, .inr ⟨.inr (.inr (.inl rfl)), rfl⟩⟩
  · exact ⟨rfl, rfl, .inr ⟨.inr (.inr (.inr rfl)), rfl⟩⟩
  all_goals exact ⟨rfl, rfl, .inl rfl⟩

/-- A byte of no more than three bits is its selector's byte. -/
theorem selectorByte_of_fits : ∀ b : Byte, b.extractLsb' 3 5 = 0 → (b.setWidth 3).setWidth 8 = b := by decide

/-- Settles O2: the bytes a port accepts are those of one word, one byte, or one selector with DATA, and each
decoder's instruction encodes to them. -/
theorem encodeAfterDecodeGivesBytes : Obligations.EncodeAfterDecodeGivesBytes := by
  unfold Obligations.EncodeAfterDecodeGivesBytes
  intro p bs i h
  unfold decode at h
  split at h
  case h_1 b0 b1 b2 b3 =>
    cases h
    obtain ⟨hwf, hport, henc⟩ := decodeCtrl_spec (bytesWord b0 b1 b2 b3)
    exact ⟨hwf, hport, .inl (henc.trans (wordBytes_bytesWord b0 b1 b2 b3))⟩
  case h_2 b =>
    cases h
    obtain ⟨hwf, hport, henc⟩ := decodeByte_spec b
    exact ⟨hwf, hport, .inl henc⟩
  case h_3 sel b0 b1 b2 b3 =>
    split at h
    case isTrue => cases h
    case isFalse hfits =>
      cases h
      have hsel := selectorByte_of_fits sel (not_not.1 hfits)
      obtain ⟨hwf, hport, henc | ⟨hread, hhead⟩⟩ := decodeHostTx_spec (bytesWord b0 b1 b2 b3) (sel.setWidth 3)
      · exact ⟨hwf, hport, .inl (by rw [henc, encodeHostTx, hsel, wordBytes_bytesWord])⟩
      · exact ⟨hwf, hport, .inr ⟨hread, by rw [hhead, hsel]; rfl⟩⟩
  case h_4 => cases h

/-- Settles O6: eight closed words, which the decoders evaluate. -/
theorem specWordsDecodeAsWritten : Obligations.SpecWordsDecodeAsWritten := by
  unfold Obligations.SpecWordsDecodeAsWritten
  exact ⟨rfl, rfl, rfl, rfl, rfl, rfl, rfl, rfl⟩

end Sys2Proof
end

section
/-! What one atomic step can do, by its cause: the facts about the selectors and the command words that tell the
causes apart, and then one case per effect, from which every invariant and every claim on who writes what is read. -/

namespace Sys2Proof

/-! ### Which words and selectors are which instruction -/

theorem decodeCommand_of_reservedField {w : Word} (h : w.extractLsb' 2 30 ≠ 0) : decodeCommand w = .reserved w :=
  if_pos h

theorem decodeCommand_eq_start_iff {w : Word} : decodeCommand w = .start ↔ w = 3 := by
  refine ⟨fun h => ?_, fun h => h ▸ rfl⟩
  rcases commandWord_cases w with ⟨hfield, -⟩ | rfl | rfl | rfl | rfl
  · cases (decodeCommand_of_reservedField hfield).symm.trans h
  · cases h
  · cases h
  · cases h
  · rfl

theorem decodeCommand_eq_startAbsent_iff {w : Word} : decodeCommand w = .startAbsent ↔ w = 1 := by
  refine ⟨fun h => ?_, fun h => h ▸ rfl⟩
  rcases commandWord_cases w with ⟨hfield, -⟩ | rfl | rfl | rfl | rfl
  · cases (decodeCommand_of_reservedField hfield).symm.trans h
  · cases h
  · rfl
  · cases h
  · cases h

theorem decodeHostTx_port (sel : Sel) (data : Word) : (decodeHostTx sel data).port = .hostTx :=
  (decodeHostTx_spec data sel).2.1

theorem decodeHostTx_eq_wrCtrl {sel : Sel} {data w : Word} (h : decodeHostTx sel data = .wrCtrl w) :
    sel = 0b100 ∧ w = data := by
  rcases selector_cases sel with rfl | rfl | rfl | rfl | rfl | rfl | rfl | rfl <;> cases h
  exact ⟨rfl, rfl⟩

theorem decodeHostTx_eq_wrBase {sel : Sel} {data v : Word} (h : decodeHostTx sel data = .wrBase v) :
    sel = 0b110 ∧ v = data := by
  rcases selector_cases sel with rfl | rfl | rfl | rfl | rfl | rfl | rfl | rfl <;> cases h
  exact ⟨rfl, rfl⟩

namespace Machine

open Sys2Proof.Config

/-- CTRL is written at offset 0 (20_memory.md R41). -/
theorem selector_eq_wrCtrl : ∀ w : Bool, ∀ off < 16, off % 4 = 0 → selector w off = 0b100 → w = true ∧ off = 0 := by
  decide

/-- BASE is written at offset 8 (20_memory.md R41). -/
theorem selector_eq_wrBase : ∀ w : Bool, ∀ off < 16, off % 4 = 0 → selector w off = 0b110 → w = true ∧ off = 8 := by
  decide

/-- A transaction is an access at one of the window's four offsets, and the decoded selector of that offset. -/
theorem hostInstr_offset {p : Platform} {a : Access} {i : Instr} (h : hostInstr p a = .ok i) :
    ∃ off < 16, off % 4 = 0 ∧ a.addr = p.blockBase + off ∧ decodeHostTx (selector a.write off) a.data = i := by
  have hsize : windowSize = 16 := rfl
  obtain ⟨-, hlo, hhi, halign, rfl⟩ := hostInstr_ok.1 h
  exact ⟨a.addr - p.blockBase, by omega, halign, by omega, rfl⟩

theorem hostInstr_port {p : Platform} {a : Access} {i : Instr} (h : hostInstr p a = .ok i) : i.port = .hostTx := by
  obtain ⟨off, -, -, -, rfl⟩ := hostInstr_offset h
  exact decodeHostTx_port _ _

/-- A WR_CTRL is a write at the window's first address. -/
theorem hostInstr_wrCtrl {p : Platform} {a : Access} {w : Word} (h : hostInstr p a = .ok (.wrCtrl w)) :
    a.write = true ∧ a.addr = p.blockBase ∧ a.data = w := by
  obtain ⟨off, hoff, halign, haddr, hi⟩ := hostInstr_offset h
  obtain ⟨hsel, rfl⟩ := decodeHostTx_eq_wrCtrl hi
  obtain ⟨hw, rfl⟩ := selector_eq_wrCtrl a.write off hoff halign hsel
  exact ⟨hw, haddr, rfl⟩

/-- A WR_BASE is a write at offset 8. -/
theorem hostInstr_wrBase {p : Platform} {a : Access} {v : Word} (h : hostInstr p a = .ok (.wrBase v)) :
    a.write = true ∧ a.addr = p.blockBase + 8 := by
  obtain ⟨off, hoff, halign, haddr, hi⟩ := hostInstr_offset h
  obtain ⟨hsel, -⟩ := decodeHostTx_eq_wrBase hi
  obtain ⟨hw, rfl⟩ := selector_eq_wrBase a.write off hoff halign hsel
  exact ⟨hw, haddr⟩

/-! ### The effects of a step -/

/-- What a step can make of a state, with the event that is its cause; without one it is the quiet turn. -/
inductive Effect : Option Event → State → State → Prop
  /-- Nothing changes. -/
  | nothing {e : Option Event} {s : State} : Effect e s s
  /-- The engine absorbs the byte at PTR (40_djb2_hash_engine.md R68). -/
  | absorb {e : Option Event} {s : State} {c : Byte} (hturn : e = none ∨ e = some .engine) (hbusy : s.st = .busy)
      (hi : engineInstr s = some (.absorb c)) : Effect e s (absorbByte c s)
  /-- The engine finalises the run (R70). -/
  | finalize {e : Option Event} {s : State} (hturn : e = none ∨ e = some .engine) (hbusy : s.st = .busy)
      (hi : engineInstr s = some .finalize) : Effect e s (finalizeRun s)
  /-- The host reads a register (42_host_interface.md R98). -/
  | read {s : State} {a : Access} (v : Word) : Effect (some (.host a)) s (returnData v s)
  /-- The host writes BASE (R103). -/
  | writeBase {s : State} {a : Access} (v : Word) (hw : a.write = true) (haddr : a.addr = s.platform.blockBase + 8) :
      Effect (some (.host a)) s (writeBase v s)
  /-- A START is accepted (R95). -/
  | start {s : State} {a : Access} (hst : s.st ≠ .busy) (hw : a.write = true) (haddr : a.addr = s.platform.blockBase)
      (hdata : a.data = 3) : Effect (some (.host a)) s (init s)
  /-- A START_ABSENT is accepted (R97). -/
  | startAbsent {s : State} {a : Access} (hst : s.st ≠ .busy) (hw : a.write = true)
      (haddr : a.addr = s.platform.blockBase) (hdata : a.data = 1) :
      Effect (some (.host a)) s (raiseInvalidInput s)
  /-- The block is reset (70_reset_and_hazards.md R133). -/
  | reset {s : State} : Effect (some .reset) s (applyReset s)
  /-- A byte is placed from outside the block (20_memory.md R39). -/
  | place {s : State} {a : Nat} (b : Byte) (ha : a < s.platform.space) : Effect (some (.place a b)) s (placeByte a b s)

/-- The engine's instruction absorbs or finalises. -/
theorem effect_of_engineInstr {e : Option Event} {s t : State} {i : Instr} (hturn : e = none ∨ e = some .engine)
    (hi : engineInstr s = some i) (h : exec i s = .next t) : Effect e s t := by
  obtain ⟨hbusy, rfl | ⟨c, rfl⟩⟩ := engineInstr_cases hi
  · cases (exec_finalize_of_busy hbusy).symm.trans h
    exact .finalize hturn hbusy hi
  · cases (exec_absorb_of_busy c hbusy).symm.trans h
    exact .absorb hturn hbusy hi

/-- A host access reads a register, writes BASE, or starts by a command word; no other transaction has an effect. -/
theorem effect_of_hostInstr {s t : State} {a : Access} {i : Instr} (hi : hostInstr s.platform a = .ok i)
    (h : exec i s = .next t) : Effect (some (.host a)) s t := by
  have hport := hostInstr_port hi
  rcases exec_next h with rfl | ⟨v, -, rfl⟩ | ⟨v, rfl, rfl⟩ | ⟨rfl | ⟨w, rfl, hw⟩, hst, rfl⟩ |
    ⟨rfl | ⟨w, rfl, hw⟩, hst, rfl⟩ | ⟨c, rfl, -, rfl⟩ | ⟨rfl, -, rfl⟩
  · exact .nothing
  · exact .read v
  · obtain ⟨hwrite, haddr⟩ := hostInstr_wrBase hi
    exact .writeBase v hwrite haddr
  · cases hport
  · obtain ⟨hwrite, haddr, rfl⟩ := hostInstr_wrCtrl hi
    exact .start hst hwrite haddr (decodeCommand_eq_start_iff.1 hw)
  · cases hport
  · obtain ⟨hwrite, haddr, rfl⟩ := hostInstr_wrCtrl hi
    exact .startAbsent hst hwrite haddr (decodeCommand_eq_startAbsent_iff.1 hw)
  · cases hport
  · cases hport

theorem turn_effect {e : Event} {s t : State} (h : turn e s = .next t) : Effect (some e) s t := by
  rcases turn_next h with ⟨-, -, rfl⟩ | ⟨rfl, i, hi, h⟩ | ⟨a, i, rfl, hi, h⟩ | ⟨rfl, rfl⟩ | ⟨a, b, rfl, ha, rfl⟩
  · exact .nothing
  · exact effect_of_engineInstr (.inr rfl) hi h
  · exact effect_of_hostInstr hi h
  · exact .reset
  · exact .place b ha

theorem quietTurn_effect {s t : State} (h : quietTurn s = .next t) : Effect none s t := by
  rcases quietTurn_next h with ⟨i, hi, h⟩ | ⟨-, rfl⟩
  · exact effect_of_engineInstr (.inl rfl) hi h
  · exact .nothing

/-- Taking no event from an empty list is no change. -/
theorem setEvents_tail_of_nil {s : State} (h : s.events = []) : setEvents s.events.tail s = s := by
  rw [h, List.tail_nil, ← h]
  rfl

/-- A step takes its event and has that event's effect. -/
theorem step_effect {s t : State} (h : step s = .next t) :
    Effect s.events.head? (setEvents s.events.tail s) t := by
  rcases step_next h with ⟨hes, hq⟩ | ⟨e, es, hes, ht⟩
  · rw [setEvents_tail_of_nil hes, hes]
    exact quietTurn_effect hq
  · rw [hes]
    exact turn_effect ht

/-- The engine's own turn is the step of no event or of an engine turn. -/
theorem enginesTurn_of_head? {s : State} (h : s.events.head? = none ∨ s.events.head? = some .engine) :
    s.EnginesTurn := h.imp_left List.head?_eq_none_iff.1

theorem effect_platform {e : Option Event} {s t : State} (h : Effect e s t) : t.platform = s.platform := by
  cases h <;> rfl

/-! ### The standing invariant -/

theorem inv_setEvents {s : State} (es : List Event) (h : s.Inv) : (setEvents es s).Inv :=
  ⟨h.memory, h.inSpace, h.ptr, h.base, h.runStart, h.changed, h.errCode⟩

theorem startAddress_lt (s : State) : (startAddress s).toNat < s.platform.space := wrapAddress_lt _ _

/-- A placed byte keeps the listed addresses in the space. -/
theorem placeByte_inSpace {s : State} {a : Nat} (b : Byte) (ha : a < s.platform.space)
    (h : ∀ c ∈ s.mem, c.1 < s.platform.space) : ∀ c ∈ (placeByte a b s).mem, c.1 < s.platform.space := by
  intro c hc
  rw [placeByte_mem] at hc
  split at hc
  · exact h c hc
  · rcases Memory.mem_write hc with rfl | hc
    · exact ha
    · exact h c hc

/-- A placed byte is recorded only at an address of the space. -/
theorem placeByte_changed_lt {s : State} {a : Nat} (b : Byte) (ha : a < s.platform.space)
    (h : ∀ c ∈ s.changed, c < s.platform.space) : ∀ c ∈ (placeByte a b s).changed, c < s.platform.space := by
  intro c hc
  rw [placeByte_changed] at hc
  split at hc
  · rcases List.mem_cons.1 hc with rfl | hc
    · exact ha
    · exact h c hc
  · exact h c hc

/-- Every effect keeps the standing invariant. -/
theorem effect_inv {e : Option Event} {s t : State} (h : Effect e s t) (hs : s.Inv) : t.Inv := by
  have hzero : (0#32).toNat < s.platform.space := Platform.space_pos s.platform
  have hbusyErr : s.st = .busy → s.errCode = 0 := fun hbusy => by rw [hs.errCode, hbusy]; rfl
  obtain ⟨hmem, hin, hptr, hbase, hstart, hchanged, herr⟩ := hs
  cases h with
  | nothing => exact ⟨hmem, hin, hptr, hbase, hstart, hchanged, herr⟩
  | absorb _ _ _ => exact ⟨hmem, hin, wrapAddress_lt _ _, hbase, hstart, hchanged, herr⟩
  | finalize _ hbusy _ => exact ⟨hmem, hin, hptr, hbase, hstart, hchanged, hbusyErr hbusy⟩
  | read v => exact ⟨hmem, hin, hptr, hbase, hstart, hchanged, herr⟩
  | writeBase v _ _ => exact ⟨hmem, hin, hptr, baseWritten_lt _ _, hstart, hchanged, herr⟩
  | start _ _ _ _ =>
    exact ⟨hmem, hin, startAddress_lt s, hbase, startAddress_lt s, fun _ ha => absurd ha List.not_mem_nil, rfl⟩
  | startAbsent _ _ _ _ => exact ⟨hmem, hin, hptr, hbase, hstart, hchanged, rfl⟩
  | reset => exact ⟨hmem, hin, hzero, hzero, hzero, fun _ ha => absurd ha List.not_mem_nil, rfl⟩
  | place b ha =>
    exact ⟨placeByte_mem_wf _ b hmem, placeByte_inSpace b ha hin, hptr, hbase, hstart,
      placeByte_changed_lt b ha hchanged, herr⟩

/-- Settles O42: a step takes its event, which the invariant does not name, and has one of the effects. -/
theorem stepKeepsGoodStates : Obligations.StepKeepsGoodStates := by
  unfold Obligations.StepKeepsGoodStates
  intro s t hs h
  exact effect_inv (step_effect h) (inv_setEvents s.events.tail hs)

/-- Settles O41: every register is zero, the memory and the records are empty, and STATE is IDLE. -/
theorem resetIsGood : Obligations.ResetIsGood := by
  unfold Obligations.ResetIsGood
  exact {
    memory := reset_mem_wf
    inSpace := fun _ hc => absurd hc List.not_mem_nil
    ptr := Platform.space_pos _
    base := Platform.space_pos _
    runStart := Platform.space_pos _
    changed := fun _ ha => absurd ha List.not_mem_nil
    errCode := rfl }

end Machine
end Sys2Proof
end

section
/-! A run and the bytes it has absorbed (10_state.md R27, R28): the registers follow the recurrence over them, and
every effect keeps the run invariant. -/

namespace Sys2Proof.Machine

open Sys2Proof.Config

/-! ### Addresses -/

/-- The next address depends on an address only modulo `2^ADDR_W`. -/
theorem wrapAddress_mod_add (p : Platform) (m n : Nat) : wrapAddress p (m % p.space + n) = wrapAddress p (m + n) := by
  rw [wrapAddress, wrapAddress, Nat.mod_add_mod]

/-! ### The registers of a run -/

/-- PTR, LEN and ACC are what the bytes absorbed so far make them (10_state.md R27). -/
structure State.Follows (s : State) : Prop where
  ptr : s.ptr = wrapAddress s.platform (s.runStart.toNat + s.consumed.length)
  len : s.len.toNat = s.consumed.length % 256
  acc : s.acc = djb2 32 s.consumed

/-- In BUSY the run invariant has the registers follow the bytes absorbed. -/
theorem State.RunInv.follows {s : State} (h : s.RunInv) (hbusy : s.st = .busy) : s.Follows :=
  ⟨h.ptr hbusy, h.len hbusy, h.acc hbusy⟩

theorem follows_init (s : State) : (init s).Follows where
  ptr := by
    apply BitVec.eq_of_toNat_eq
    rw [wrapAddress_toNat]
    exact (Nat.mod_eq_of_lt (startAddress_lt s)).symm
  len := rfl
  acc := rfl

theorem djb2_concat (w : Nat) (s : List Byte) (c : Byte) : djb2 w (s ++ [c]) = djb2Step (djb2 w s) c := by
  rw [djb2, List.foldl_append]
  rfl

/-- ABSORB takes the registers one byte on. -/
theorem follows_absorbByte {s : State} (h : s.Follows) (c : Byte) : (absorbByte c s).Follows where
  ptr := by
    rw [absorbByte_ptr, absorbByte_platform, absorbByte_runStart, absorbByte_consumed, h.ptr, wrapAddress_toNat,
      wrapAddress_mod_add, List.length_append, List.length_singleton, Nat.add_assoc]
  len := by
    rw [absorbByte_len, absorbByte_consumed, BitVec.toNat_ofNat, h.len, List.length_append]
    exact Nat.mod_add_mod _ _ _
  acc := by rw [absorbByte_acc, absorbByte_consumed, djb2_concat, h.acc]

/-- What FINALIZE packs is COMPUTE of the bytes absorbed, where the duty was kept (41_hash_length_packer.md R83). -/
theorem finalResult_of_follows {s : State} (h : s.Follows) (hduty : dutyBroken s = false) :
    finalResult s = compute s.consumed := by
  rw [finalResult, hduty, h.acc, h.len]
  exact pack_djb2_eq_compute (by decide) (Nat.le_refl 8) s.consumed

/-! ### The run invariant -/

theorem runInv_setEvents {s : State} (es : List Event) (h : s.RunInv) : (setEvents es s).RunInv :=
  ⟨h.ptr, h.len, h.acc, h.nonzero, h.fromMemory, h.result⟩

/-- Outside BUSY and DONE the run invariant says nothing. -/
theorem runInv_of_no_run {s : State} (hbusy : s.st ≠ .busy) (hdone : s.st ≠ .done) : s.RunInv where
  ptr h := absurd h hbusy
  len h := absurd h hbusy
  acc h := absurd h hbusy
  nonzero h := absurd h hbusy
  fromMemory h := absurd h hbusy
  result h := absurd h hdone

theorem runInv_init (s : State) : (init s).RunInv where
  ptr _ := (follows_init s).ptr
  len _ := rfl
  acc _ := rfl
  nonzero _ _ hb := absurd hb List.not_mem_nil
  fromMemory _ _ := rfl
  result h := nomatch h

/-- An ABSORB appends the byte at PTR, which is nonzero. -/
theorem engineInstr_absorb {s : State} {c : Byte} (h : engineInstr s = some (.absorb c)) :
    c = s.mem.read s.ptr.toNat ∧ c ≠ 0 := by
  obtain ⟨-, -, hc⟩ := engineInstr_some.1 h
  rw [decodeByte, fetchByte] at hc
  split at hc
  · cases hc
  · next hne =>
    cases hc
    exact ⟨rfl, hne⟩

theorem runInv_absorbByte {s : State} {c : Byte} (h : s.RunInv) (hbusy : s.st = .busy)
    (hi : engineInstr s = some (.absorb c)) : (absorbByte c s).RunInv := by
  obtain ⟨hc, hne⟩ := engineInstr_absorb hi
  have hfollows := follows_absorbByte (h.follows hbusy) c
  refine ⟨fun _ => hfollows.ptr, fun _ => hfollows.len, fun _ => hfollows.acc, fun _ => ?nonzero, fun _ => ?fromMemory,
    fun hdone => ?result⟩
  case nonzero =>
    intro b hb
    rcases List.mem_append.1 hb with hb | hb
    · exact h.nonzero hbusy b hb
    · rwa [List.mem_singleton.1 hb]
  case fromMemory =>
    intro hkept
    simp only [absorbByte_consumed, absorbByte_platform, absorbByte_runStart, absorbByte_changed, absorbByte_mem,
      List.length_append, List.length_singleton, inputBytes] at hkept ⊢
    rw [← h.fromMemory hbusy fun j hj => hkept j (by omega), hc, h.ptr hbusy, wrapAddress_toNat]
  case result => exact nomatch hbusy.symm.trans hdone

theorem runInv_finalizeRun {s : State} (h : s.RunInv) (hbusy : s.st = .busy) : (finalizeRun s).RunInv where
  ptr h := nomatch h
  len h := nomatch h
  acc h := nomatch h
  nonzero h := nomatch h
  fromMemory h := nomatch h
  result _ hduty := finalResult_of_follows (h.follows hbusy) hduty

/-- A placed byte leaves every other address, and the byte that stands there already leaves its own too. -/
theorem read_placeByte_of_kept {s : State} {a c : Nat} {b : Byte} (h : s.mem.read a ≠ b → c ≠ a) :
    (placeByte a b s).mem.read c = s.mem.read c := by
  rw [placeByte_mem]
  split
  · rfl
  · next hne => exact Memory.read_write_other b (h hne)

/-- A placed byte that differs is recorded in BUSY, so it is at no address that the invariant still speaks of; in
DONE nothing is recorded. -/
theorem runInv_placeByte {s : State} (a : Nat) (b : Byte) (h : s.RunInv) : (placeByte a b s).RunInv where
  ptr := h.ptr
  len := h.len
  acc := h.acc
  nonzero := h.nonzero
  fromMemory hbusy hkept := by
    have hbusy : s.st = .busy := hbusy
    rw [placeByte_changed] at hkept
    have hsame : ∀ j < s.consumed.length, (placeByte a b s).mem.read ((s.runStart.toNat + j) % s.platform.space) =
        s.mem.read ((s.runStart.toNat + j) % s.platform.space) := by
      intro j hj
      refine read_placeByte_of_kept fun hne heq => hkept j hj ?_
      rw [if_pos ⟨hne, hbusy⟩]
      exact heq ▸ List.mem_cons_self
    have hold : ∀ j < s.consumed.length, (s.runStart.toNat + j) % s.platform.space ∉ s.changed := by
      intro j hj hmem
      refine hkept j hj ?_
      split
      · exact List.mem_cons_of_mem a hmem
      · exact hmem
    exact (h.fromMemory hbusy hold).trans (inputBytes_congr _ fun j hj => (hsame j hj).symm)
  result hdone hduty := by
    have hdone : s.st = .done := hdone
    have hchanged : (placeByte a b s).changed = s.changed := by rw [placeByte_changed, hdone]; simp
    have hsame : dutyBroken (placeByte a b s) = dutyBroken s := by rw [dutyBroken, hchanged]; rfl
    exact h.result hdone (hsame ▸ hduty)

/-- Every effect keeps the run invariant. -/
theorem effect_runInv {e : Option Event} {s t : State} (h : Effect e s t) (hs : s.RunInv) : t.RunInv := by
  cases h with
  | nothing => exact hs
  | absorb _ hbusy hi => exact runInv_absorbByte hs hbusy hi
  | finalize _ hbusy _ => exact runInv_finalizeRun hs hbusy
  | read v => exact ⟨hs.ptr, hs.len, hs.acc, hs.nonzero, hs.fromMemory, hs.result⟩
  | writeBase v _ _ => exact ⟨hs.ptr, hs.len, hs.acc, hs.nonzero, hs.fromMemory, hs.result⟩
  | start _ _ _ _ => exact runInv_init s
  | startAbsent _ _ _ _ => exact runInv_of_no_run nofun nofun
  | reset => exact runInv_of_no_run nofun nofun
  | place b _ => exact runInv_placeByte _ b hs

/-- Settles O44: a step takes its event, which the invariant does not name, and has one of the effects. -/
theorem stepKeepsRunInvariant : Obligations.StepKeepsRunInvariant := by
  unfold Obligations.StepKeepsRunInvariant
  intro s t hs h
  exact effect_runInv (step_effect h) (runInv_setEvents s.events.tail hs)

/-- Settles O43: after reset no run is in progress or done, and an accepted START is INIT. -/
theorem startEstablishesRunInvariant : Obligations.StartEstablishesRunInvariant := by
  unfold Obligations.StartEstablishesRunInvariant
  refine ⟨runInv_of_no_run nofun nofun, ?_⟩
  intro s t i hi hidle h
  rw [exec_start_eq hi, if_neg hidle] at h
  cases h
  exact ⟨runInv_init s, init_st s, init_consumed s⟩

end Sys2Proof.Machine
end

section
/-! What a step runs and where it stops: the engine's decoded byte, the host's decoded transaction, a transported
command, and the accesses, addresses and stuck engines that no step gets past. -/

namespace Sys2Proof.Machine

open Sys2Proof.Config

/-! ### The turns of a step -/

theorem step_of_event {s : State} {e : Event} {es : List Event} (h : s.events = e :: es) :
    step s = turn e (setEvents es s) := by
  rw [step, h]

theorem step_of_nil {s : State} (h : s.events = []) : step s = quietTurn s := by
  rw [step, h]

theorem turn_engine_of_none {s : State} (h : engineInstr s = none) : turn .engine s = .next s := by
  simp only [turn, h]

theorem quietTurn_of_some {s : State} {i : Instr} (h : engineInstr s = some i) : quietTurn s = exec i s := by
  simp only [quietTurn, h]

theorem quietTurn_of_none {s : State} (h : engineInstr s = none) :
    quietTurn s = if s.st = .busy then .fault .engineStuck else .next s := by
  simp only [quietTurn, h]

theorem turn_host_of_ok {s : State} {a : Access} {i : Instr} (h : hostInstr s.platform a = .ok i) :
    turn (.host a) s = exec i s := by
  simp only [turn, h]

theorem turn_host_of_error {s : State} {a : Access} {r : Refusal} (h : hostInstr s.platform a = .error r) :
    turn (.host a) s = .refused r := by
  simp only [turn, h]

/-! ### The window -/

/-- An aligned 32-bit access in the window is the transaction at its offset (20_memory.md R41). -/
theorem hostInstr_at (p : Platform) (w : Bool) {off : Nat} (hoff : off < 16) (halign : off % 4 = 0) (v : Word) :
    hostInstr p ⟨w, p.blockBase + off, 4, v⟩ = .ok (decodeHostTx (selector w off) v) := by
  rw [hostInstr_ok, Nat.add_sub_cancel_left]
  exact ⟨rfl, Nat.le_add_right _ _, Nat.add_lt_add_left hoff _, halign, rfl⟩

/-- Settles O5: the eight selectors of the window decode by the transaction table. -/
theorem windowOffsetsSelectTransactions : Obligations.WindowOffsetsSelectTransactions := by
  unfold Obligations.WindowOffsetsSelectTransactions
  intro p v
  have hread : ∀ off < 16, off % 4 = 0 →
      hostInstr p ⟨false, p.blockBase + off, 4, v⟩ = .ok (decodeHostTx (selector false off) v) :=
    fun _ hoff halign => hostInstr_at p false hoff halign v
  have hwrite : ∀ off < 16, off % 4 = 0 →
      hostInstr p ⟨true, p.blockBase + off, 4, v⟩ = .ok (decodeHostTx (selector true off) v) :=
    fun _ hoff halign => hostInstr_at p true hoff halign v
  exact ⟨hread 0x00 (by decide) rfl, hread 0x04 (by decide) rfl, hread 0x08 (by decide) rfl,
    hread 0x0C (by decide) rfl, hwrite 0x00 (by decide) rfl, hwrite 0x04 (by decide) rfl,
    hwrite 0x08 (by decide) rfl, hwrite 0x0C (by decide) rfl⟩

/-- Settles O7: the engine's byte, with its turn or without an event, and the host's transaction. -/
theorem stepRunsDecodedInstruction : Obligations.StepRunsDecodedInstruction := by
  unfold Obligations.StepRunsDecodedInstruction
  intro s
  refine ⟨?turn, ?quiet, ?host⟩
  case turn =>
    intro es hes hbusy hread
    have hi : engineInstr (setEvents es s) = some (decodeByte (s.mem.read s.ptr.toNat)) :=
      engineInstr_some.2 ⟨hbusy, hread, rfl⟩
    rw [step_of_event hes, turn_engine_of_some hi]
  case quiet =>
    intro hes hbusy hread
    rw [step_of_nil hes, quietTurn_of_some (engineInstr_some.2 ⟨hbusy, hread, rfl⟩), fetchByte]
  case host =>
    intro w off v es hoff halign hes
    rw [step_of_event hes]
    exact turn_host_of_ok (hostInstr_at s.platform w hoff halign v)

/-- Settles O8: the word is pended as the DATA of a WR_CTRL, whose turn runs its command. -/
theorem stepRunsTransportedCommand : Obligations.StepRunsTransportedCommand := by
  unfold Obligations.StepRunsTransportedCommand
  intro s w
  have hpend : s.withFetchWord 32 w.toNat = pendAccess 0b100 w s := by
    change pendAccess 0b100 (BitVec.ofNat 32 w.toNat) s = _
    rw [BitVec.ofNat_toNat, BitVec.setWidth_eq]
  calc step (s.withFetchWord 32 w.toNat)
    _ = turn (.host (accessOf s.platform 0b100 w)) s := by rw [hpend]; rfl
    _ = exec (decodeHostTx 0b100 w) s := turn_accessOf s 0b100 w
    _ = exec (decodeCtrl w) s := execWrCtrl_toInstr w s

/-! ### Where a step stops -/

/-- Only an engine's instruction outside BUSY is refused, and none faults. -/
theorem exec_completes (i : Instr) (s : State) (h : i.port = .byte → s.st = .busy) : ∃ t, exec i s = .next t := by
  have hstart := unlessBusy_eq s init
  have habsent := unlessBusy_eq s raiseInvalidInput
  cases i with
  | start => exact ⟨_, hstart⟩
  | startAbsent => exact ⟨_, habsent⟩
  | absorb c => exact ⟨_, exec_absorb_of_busy c (h rfl)⟩
  | finalize => exact ⟨_, exec_finalize_of_busy (h rfl)⟩
  | wrCtrl w =>
    have hw := execWrCtrl_toInstr w s
    cases hc : decodeCommand w <;> rw [hc] at hw
    case start => exact ⟨_, hw.trans hstart⟩
    case startAbsent => exact ⟨_, hw.trans habsent⟩
    all_goals exact ⟨_, hw⟩
  | _ => exact ⟨_, rfl⟩

/-- A transaction completes in every STATE (42_host_interface.md R105). -/
theorem exec_hostTx_completes {i : Instr} (hi : i.port = .hostTx) (s : State) : ∃ t, exec i s = .next t :=
  exec_completes i s fun hbyte => nomatch hi.symm.trans hbyte

/-- Where the engine has a step it completes. -/
theorem exec_engineInstr_completes {s : State} {i : Instr} (hi : engineInstr s = some i) : ∃ t, exec i s = .next t :=
  exec_completes i s fun _ => (engineInstr_cases hi).1

/-- The three ways in which an access is no transaction (20_memory.md R42). -/
theorem hostInstr_error {p : Platform} {a : Access} {r : Refusal} (h : hostInstr p a = .error r) :
    (r = .accessNotWord ∧ a.size ≠ 4) ∨
    (r = .accessOutsideWindow ∧ (a.addr < p.blockBase ∨ p.blockBase + 16 ≤ a.addr)) ∨
    (r = .accessMisaligned ∧ (a.addr - p.blockBase) % 4 ≠ 0) := by
  unfold hostInstr at h
  split at h
  · next hsize => exact .inl ⟨(Except.error.inj h).symm, hsize⟩
  · split at h
    · next hout => exact .inr (.inl ⟨(Except.error.inj h).symm, hout⟩)
    · split at h
      · next halign => exact .inr (.inr ⟨(Except.error.inj h).symm, halign⟩)
      · cases h

/-- Every turn completes, but that of an access that is no transaction and of a byte outside the space. -/
theorem turn_completes (e : Event) (s : State) :
    (∃ t, turn e s = .next t) ∨
    (∃ a r, e = .host a ∧ hostInstr s.platform a = .error r ∧ turn e s = .refused r) ∨
    (∃ a b, e = .place a b ∧ s.platform.space ≤ a ∧ turn e s = .fault .addressOutsideSpace) := by
  cases e with
  | engine =>
    refine .inl ?_
    cases hi : engineInstr s with
    | none => exact ⟨s, turn_engine_of_none hi⟩
    | some i => rw [turn_engine_of_some hi]; exact exec_engineInstr_completes hi
  | host a =>
    cases hi : hostInstr s.platform a with
    | ok i => exact .inl (turn_host_of_ok hi ▸ exec_hostTx_completes (hostInstr_port hi) s)
    | error r => exact .inr (.inl ⟨a, r, rfl, hi, turn_host_of_error hi⟩)
  | reset => exact .inl ⟨_, rfl⟩
  | place a b =>
    rcases Nat.lt_or_ge a s.platform.space with ha | ha
    · exact .inl ⟨_, if_pos ha⟩
    · exact .inr (.inr ⟨a, b, rfl, ha, if_neg (Nat.not_lt.2 ha)⟩)

/-- The quiet turn completes unless the engine is stuck (20_memory.md R37). -/
theorem quietTurn_completes (s : State) :
    (∃ t, quietTurn s = .next t) ∨
    (s.st = .busy ∧ readable s.platform s.ptr.toNat = false ∧ quietTurn s = .fault .engineStuck) := by
  cases hi : engineInstr s with
  | some i => exact .inl (quietTurn_of_some hi ▸ exec_engineInstr_completes hi)
  | none =>
    rw [quietTurn_of_none hi]
    by_cases hbusy : s.st = .busy
    · exact .inr ⟨hbusy, (engineInstr_none.1 hi).resolve_left (not_not_intro hbusy), if_pos hbusy⟩
    · exact .inl ⟨s, if_neg hbusy⟩

/-- Settles O9: the turns that do not complete, with the step's event or without one. -/
theorem stepStopsOnlyOutsideTheBlock : Obligations.StepStopsOnlyOutsideTheBlock := by
  unfold Obligations.StepStopsOnlyOutsideTheBlock
  intro s
  cases hes : s.events with
  | nil =>
    rw [step_of_nil hes]
    rcases quietTurn_completes s with ⟨t, ht⟩ | ⟨hbusy, hread, ht⟩ <;> rw [ht]
    · exact ⟨nofun, nofun⟩
    · exact ⟨nofun, fun f hf => .inl ⟨(Host.Outcome.fault.inj hf).symm, rfl, hbusy, hread⟩⟩
  | cons e es =>
    rw [step_of_event hes]
    rcases turn_completes e (setEvents es s) with ⟨t, ht⟩ | ⟨a, r, rfl, hr, ht⟩ | ⟨a, b, rfl, ha, ht⟩ <;> rw [ht]
    · exact ⟨nofun, nofun⟩
    · refine ⟨fun r' hr' => ?_, nofun⟩
      cases hr'
      exact ⟨a, es, rfl, hostInstr_error hr⟩
    · exact ⟨nofun, fun f hf => .inr ⟨(Host.Outcome.fault.inj hf).symm, a, b, es, rfl, ha⟩⟩

/-- An access is a transaction exactly at one of the four registers (20_memory.md R41, R42). -/
theorem exists_hostInstr_ok_iff {p : Platform} {a : Access} :
    (∃ i, hostInstr p a = .ok i) ↔ a.size = 4 ∧ ∃ k < 4, a.addr = p.blockBase + 4 * k := by
  have hsize : windowSize = 16 := rfl
  simp only [hostInstr_ok]
  constructor
  · rintro ⟨i, hfour, hlo, hhi, halign, -⟩
    exact ⟨hfour, (a.addr - p.blockBase) / 4, by omega, by omega⟩
  · rintro ⟨hfour, k, hk, haddr⟩
    exact ⟨_, hfour, by omega, by omega, by omega, rfl⟩

/-- Settles O10: a transaction completes, and any other access is refused. -/
theorem accessIsRefusedExactlyOutsideTheWindowForm : Obligations.AccessIsRefusedExactlyOutsideTheWindowForm := by
  unfold Obligations.AccessIsRefusedExactlyOutsideTheWindowForm
  intro s a es hes
  rw [step_of_event hes, ← exists_hostInstr_ok_iff]
  cases hi : hostInstr s.platform a with
  | ok i =>
    have hrun : turn (.host a) (setEvents es s) = exec i (setEvents es s) := turn_host_of_ok hi
    obtain ⟨t, ht⟩ := exec_hostTx_completes (hostInstr_port hi) (setEvents es s)
    rw [hrun, ht]
    exact iff_of_false nofun fun h => h ⟨i, rfl⟩
  | error r =>
    have hrefused : turn (.host a) (setEvents es s) = .refused r := turn_host_of_error hi
    rw [hrefused]
    exact iff_of_true ⟨r, rfl⟩ nofun

/-! ### The engine's turn where it has no step -/

theorem whenBusy_of_not_busy {s : State} (h : s.st ≠ .busy) (f : State → State) :
    whenBusy s f = .refused .engineNotBusy := if_neg h

/-- Settles O22: the engine has no instruction outside BUSY, and ABSORB and FINALIZE are gated by BUSY. -/
theorem engineHasNoStepOutsideBusy : Obligations.EngineHasNoStepOutsideBusy := by
  unfold Obligations.EngineHasNoStepOutsideBusy
  intro s hidle
  refine ⟨fun es hes => ?_, fun hes => ?_, fun c => whenBusy_of_not_busy hidle _, whenBusy_of_not_busy hidle _⟩
  · rw [step_of_event hes]
    exact turn_engine_of_none (engineInstr_none.2 (.inl hidle))
  · rw [step_of_nil hes, quietTurn_of_none (engineInstr_none.2 (.inl hidle)), if_neg hidle]

/-- Settles O23: the engine has no instruction at an unreadable PTR, and STATE stays BUSY. -/
theorem unreadableAddressStopsTheEngine : Obligations.UnreadableAddressStopsTheEngine := by
  unfold Obligations.UnreadableAddressStopsTheEngine
  intro s hbusy hread
  refine ⟨fun es hes => ?_, fun hes => ?_, fun herr => ?_⟩
  · rw [step_of_event hes]
    exact turn_engine_of_none (engineInstr_none.2 (.inr hread))
  · rw [step_of_nil hes, quietTurn_of_none (engineInstr_none.2 (.inr hread)), if_pos hbusy]
  · have hstatus : statusWord s = 0x00000001 := by rw [statusWord_of_errCode_zero herr, hbusy]; rfl
    rw [exec_rdStatus, hstatus]
    rfl

/-! ### What the engine reads -/

/-- The state over another memory. -/
def withMem (m : Memory) (s : State) : State := { s with mem := m }

/-- The engine's instruction depends on memory only at PTR (20_memory.md R46). -/
theorem engineInstr_withMem {m : Memory} {s : State} (h : m.read s.ptr.toNat = s.mem.read s.ptr.toNat) :
    engineInstr (withMem m s) = engineInstr s := by
  have hfetch : fetchByte (withMem m s) = fetchByte s := h
  rw [engineInstr, engineInstr, hfetch]
  rfl

/-- The engine's updates do not read memory. -/
theorem exec_engineInstr_withMem {s t : State} {i : Instr} (m : Memory) (hi : engineInstr s = some i)
    (h : exec i s = .next t) : exec i (withMem m s) = .next (withMem m t) := by
  obtain ⟨hbusy, rfl | ⟨c, rfl⟩⟩ := engineInstr_cases hi
  · cases (exec_finalize_of_busy hbusy).symm.trans h
    exact exec_finalize_of_busy hbusy
  · cases (exec_absorb_of_busy c hbusy).symm.trans h
    exact exec_absorb_of_busy c hbusy

/-- Settles O24: over the other memory the engine has the same instruction, which does the same. -/
theorem engineReadsOnlyAtPtr : Obligations.EngineReadsOnlyAtPtr := by
  unfold Obligations.EngineReadsOnlyAtPtr
  intro s t m hes h hread
  change step (withMem m s) = .next (withMem m t)
  have hes' : (withMem m s).events = [] := hes
  rw [step_of_nil hes] at h
  rw [step_of_nil hes']
  have hinstr := engineInstr_withMem hread
  rcases quietTurn_next h with ⟨i, hi, hexec⟩ | ⟨hidle, rfl⟩
  · rw [quietTurn_of_some (hinstr.trans hi)]
    exact exec_engineInstr_withMem m hi hexec
  · have hnone : engineInstr (withMem m t) = none := engineInstr_none.2 (.inl hidle)
    rw [quietTurn_of_none hnone]
    exact if_neg hidle

end Sys2Proof.Machine
end

section
/-! The transactions and the engine's updates, one by one: WR_CTRL for every word, FINALIZE, the host's transactions
beside a run, the byte view of the window, and who writes which register over every step. -/

namespace Sys2Proof.Machine

open Sys2Proof.Config

/-! ### The recurrence as a shift and additions -/

/-- Settles O11: 33 is 32 and one more, and `h <<< 5` is `h * 32` reduced. -/
theorem djb2StepIsModularAndShiftAdd : Obligations.Djb2StepIsModularAndShiftAdd := by
  unfold Obligations.Djb2StepIsModularAndShiftAdd
  intro w h c
  refine ⟨djb2Step_toNat h c, BitVec.eq_of_toNat_eq ?_⟩
  rw [djb2Step_toNat, BitVec.toNat_add, BitVec.toNat_add, BitVec.toNat_shiftLeft, BitVec.toNat_setWidth,
    Nat.shiftLeft_eq, Nat.add_mod_mod, Nat.mod_add_mod, Nat.add_assoc, Nat.mod_add_mod]
  congr 1
  omega

/-! ### WR_CTRL -/

/-- What WR_CTRL makes of a state (42_host_interface.md R94 to R97, 30_encoding.md R62). -/
theorem exec_wrCtrl_eq (s : State) (w : Word) :
    exec (.wrCtrl w) s =
      .next (if s.st = .busy then s
        else if w.toNat = 3 then init s
        else if w.toNat = 1 then raiseInvalidInput s
        else s) := by
  rcases commandWord_cases w with ⟨hfield, hge⟩ | rfl | rfl | rfl | rfl
  · rw [exec_wrCtrl_of_decodeCommand (decodeCommand_of_reservedField hfield), if_neg (show w.toNat ≠ 3 by omega),
      if_neg (show w.toNat ≠ 1 by omega), ite_self]
    rfl
  · exact congrArg Host.Outcome.next (ite_self s).symm
  · exact exec_startAbsent_eq (.inr rfl) s
  · exact congrArg Host.Outcome.next (ite_self s).symm
  · exact exec_start_eq (.inr rfl) s

/-- Settles O19: WR_CTRL runs its word's command, which is INIT for 3, InvalidInput for 1, and else nothing. -/
theorem wrCtrlPerformsDecodedCommand : Obligations.WrCtrlPerformsDecodedCommand := by
  unfold Obligations.WrCtrlPerformsDecodedCommand
  exact fun s w => ⟨execWrCtrl_toInstr w s, exec_wrCtrl_eq s w⟩

/-- Settles O18: a word of 4 and above is neither start command. -/
theorem reservedCommandWordIsIgnored : Obligations.ReservedCommandWordIsIgnored := by
  unfold Obligations.ReservedCommandWordIsIgnored
  intro s w
  refine ⟨rfl, fun hw => ?_⟩
  rw [exec_wrCtrl_eq, if_neg (show w.toNat ≠ 3 by omega), if_neg (show w.toNat ≠ 1 by omega), ite_self]

theorem exec_wrCtrl_of_busy {s : State} (w : Word) (h : s.st = .busy) : exec (.wrCtrl w) s = .next s := by
  rw [exec_wrCtrl_eq, if_pos h]

/-! ### FINALIZE -/

/-- Settles O21: the one next state is `finalizeRun s`; PACK puts the count above the accumulator's low bits. -/
theorem finalizePacksResultAndIsDone : Obligations.FinalizePacksResultAndIsDone := by
  unfold Obligations.FinalizePacksResultAndIsDone
  intro s hbusy
  refine ⟨finalizeRun s, exec_finalize_of_busy hbusy, finalizeRun_st s, fun hkept => ⟨?packed, ?count⟩,
    fun hbroken => ⟨?free, ?drawn⟩, fun a => by rw [finalizeRun_mem], rfl⟩
  case packed =>
    rw [finalizeRun_result, finalResult, hkept, if_neg Bool.false_ne_true, pack_eq_append, BitVec.ofNat_toNat,
      BitVec.setWidth_eq, BitVec.setWidth_eq_extractLsb' (by decide)]
  case count => rw [finalizeRun_freeCount, hkept, if_neg Bool.false_ne_true]
  case free => rw [finalizeRun_result, finalResult, if_pos hbroken]
  case drawn => rw [finalizeRun_freeCount, if_pos hbroken]

/-! ### Host transactions beside a run -/

/-- No transaction is a FINALIZE (42_host_interface.md R102). -/
theorem exec_hostTx_result {i : Instr} {s t : State} (hport : i.port = .hostTx) (h : exec i s = .next t) :
    t.result = s.result := by
  rcases exec_next h with rfl | ⟨v, -, rfl⟩ | ⟨v, -, rfl⟩ | ⟨-, -, rfl⟩ | ⟨-, -, rfl⟩ | ⟨c, rfl, -, -⟩ | ⟨rfl, -, -⟩
  · rfl
  · rfl
  · rfl
  · rfl
  · rfl
  · cases hport
  · cases hport

/-- In BUSY a transaction reads, writes BASE, or does nothing (42_host_interface.md R96, R105). -/
theorem exec_hostTx_of_busy {i : Instr} {s t : State} (hport : i.port = .hostTx) (hbusy : s.st = .busy)
    (h : exec i s = .next t) : t = s ∨ (∃ v, t = returnData v s) ∨ ∃ v, t = writeBase v s := by
  rcases exec_next h with rfl | ⟨v, -, rfl⟩ | ⟨v, -, rfl⟩ | ⟨-, hidle, -⟩ | ⟨-, hidle, -⟩ | ⟨c, rfl, -, -⟩ | ⟨rfl, -, -⟩
  · exact .inl rfl
  · exact .inr (.inl ⟨v, rfl⟩)
  · exact .inr (.inr ⟨v, rfl⟩)
  · exact absurd hbusy hidle
  · exact absurd hbusy hidle
  · cases hport
  · cases hport

/-- Settles O30: a transaction completes, is no FINALIZE, stores nothing, and in BUSY writes BASE and the returned
DATA at most. -/
theorem hostTransactionsAlwaysComplete : Obligations.HostTransactionsAlwaysComplete := by
  unfold Obligations.HostTransactionsAlwaysComplete
  intro i s hport
  obtain ⟨t, ht⟩ := exec_hostTx_completes hport s
  refine ⟨t, ht, exec_hostTx_result hport ht, fun a => by rw [exec_mem ht], fun hbusy => ?_⟩
  rcases exec_hostTx_of_busy hport hbusy ht with rfl | ⟨v, rfl⟩ | ⟨v, rfl⟩ <;> exact ⟨hbusy, rfl, rfl, rfl, rfl⟩

/-- A transaction that makes `t` of a busy `s` makes of `s` after an ABSORB what the ABSORB makes of `t`: what it reads
and writes, the ABSORB does not touch. -/
theorem exec_hostTx_absorbByte {i : Instr} {s t : State} (c : Byte) (hport : i.port = .hostTx) (hbusy : s.st = .busy)
    (h : exec i s = .next t) : exec i (absorbByte c s) = .next (absorbByte c t) := by
  have hbusy' : (absorbByte c s).st = .busy := hbusy
  cases i with
  | rdCtrl => cases h; rfl
  | rdStatus => cases h; rfl
  | rdBase => cases h; rfl
  | rdResult => cases h; rfl
  | wrCtrl w =>
    cases (exec_wrCtrl_of_busy w hbusy).symm.trans h
    exact exec_wrCtrl_of_busy w hbusy'
  | wrStatus v => cases h; rfl
  | wrBase v => cases h; rfl
  | wrResult v => cases h; rfl
  | _ => cases hport

/-- Settles O31: both orders come to the ABSORB of the state that the transaction leaves. -/
theorem hostTransactionsCommuteWithAbsorb : Obligations.HostTransactionsCommuteWithAbsorb := by
  unfold Obligations.HostTransactionsCommuteWithAbsorb
  intro i c s hbusy hport
  obtain ⟨t, ht⟩ := exec_hostTx_completes hport s
  have hbusy' : t.st = .busy := by
    rcases exec_hostTx_of_busy hport hbusy ht with rfl | ⟨v, rfl⟩ | ⟨v, rfl⟩ <;> exact hbusy
  exact ⟨t, absorbByte c s, absorbByte c t, ht, exec_absorb_of_busy c hbusy', exec_absorb_of_busy c hbusy,
    exec_hostTx_absorbByte c hport hbusy ht⟩

/-! ### The byte view of the window -/

/-- The four register offsets (20_memory.md R41). -/
theorem offset_cases {off : Nat} (hoff : off < 16) (halign : off % 4 = 0) :
    off = 0x00 ∨ off = 0x04 ∨ off = 0x08 ∨ off = 0x0C := by omega

/-- A 32-bit read at an offset returns the register there (20_memory.md R41). -/
theorem exec_read_at (s : State) (v : Word) {off : Nat} (hoff : off < 16) (halign : off % 4 = 0) :
    exec (decodeHostTx (selector false off) v) s = .next (returnData (registerWord s off) s) := by
  rcases offset_cases hoff halign with rfl | rfl | rfl | rfl <;> rfl

/-- Byte `j` of the register at `off` (20_memory.md R43). -/
theorem windowByte_at (s : State) {off j : Nat} (hoff : off < 16) (halign : off % 4 = 0) (hj : j < 4) :
    windowByte s (s.platform.blockBase + off + j) = some (lane (registerWord s off) j) := by
  have hsize : windowSize = 16 := rfl
  have hrel : s.platform.blockBase + off + j - s.platform.blockBase = off + j := by omega
  have hword : 4 * ((off + j) / 4) = off := by omega
  have hlane : (off + j) % 4 = j := by omega
  rw [windowByte, if_neg (by omega), hrel]
  change some (lane (registerWord s (4 * ((off + j) / 4))) ((off + j) % 4)) = _
  rw [hword, hlane]

/-- Settles O32: the view and the read take one register word. -/
theorem windowBytesAreLittleEndianLanes : Obligations.WindowBytesAreLittleEndianLanes := by
  unfold Obligations.WindowBytesAreLittleEndianLanes
  intro s off j hoff halign hj
  exact ⟨_, exec_read_at s 0 hoff halign, windowByte_at s hoff halign hj⟩

/-! ### Who writes what -/

/-- Settles O34: of the effects only FINALIZE and reset write RESULT. -/
theorem onlyFinalizeWritesResult : Obligations.OnlyFinalizeWritesResult := by
  unfold Obligations.OnlyFinalizeWritesResult
  intro s t h hne
  have heffect := step_effect h
  generalize he : s.events.head? = e at heffect
  cases heffect with
  | finalize hturn hbusy hi =>
    exact .inl ⟨enginesTurn_of_head? (he ▸ hturn), hi, hbusy, rfl, exec_finalize_of_busy hbusy⟩
  | reset => exact .inr ⟨rfl, rfl⟩
  | _ => exact absurd rfl hne

/-- Settles O35: of the effects only ABSORB, an accepted START and reset write ACC, LEN and PTR. -/
theorem hiddenRegistersWrittenOnlyByStartAndAbsorb : Obligations.HiddenRegistersWrittenOnlyByStartAndAbsorb := by
  unfold Obligations.HiddenRegistersWrittenOnlyByStartAndAbsorb
  intro s t h hne
  have heffect := step_effect h
  generalize he : s.events.head? = e at heffect
  cases heffect with
  | absorb hturn hbusy hi =>
    exact .inl ⟨enginesTurn_of_head? (he ▸ hturn), _, hi, hbusy, hbusy, exec_absorb_of_busy _ hbusy⟩
  | start hidle hw haddr hdata => exact .inr (.inl ⟨hidle, rfl, _, rfl, hw, haddr, hdata⟩)
  | reset => exact .inr (.inr rfl)
  | _ => exact absurd hne (by simp)

/-- Settles O36: of the effects only a WR_BASE and reset write BASE. -/
theorem baseWrittenOnlyByHost : Obligations.BaseWrittenOnlyByHost := by
  unfold Obligations.BaseWrittenOnlyByHost
  intro s t h hne
  have heffect := step_effect h
  generalize he : s.events.head? = e at heffect
  cases heffect with
  | writeBase v hw haddr => exact .inl ⟨_, rfl, hw, haddr⟩
  | reset => exact .inr ⟨rfl, rfl⟩
  | _ => exact absurd rfl hne

/-- Settles O37: of the effects an accepted START enters BUSY, an accepted START_ABSENT ERROR, FINALIZE DONE and reset
IDLE; every other keeps STATE. -/
theorem stateChangesOnlyByItsFourCauses : Obligations.StateChangesOnlyByItsFourCauses := by
  unfold Obligations.StateChangesOnlyByItsFourCauses
  intro s t h hne
  have heffect := step_effect h
  generalize he : s.events.head? = e at heffect
  cases heffect with
  | start _ hw haddr hdata => exact ⟨fun _ => ⟨_, rfl, hw, haddr, hdata, rfl⟩, nofun, nofun, nofun⟩
  | startAbsent hidle hw haddr hdata => exact ⟨nofun, fun _ => ⟨hidle, _, rfl, hw, haddr, hdata, rfl⟩, nofun, nofun⟩
  | finalize hturn hbusy hi =>
    exact ⟨nofun, nofun, fun _ => ⟨hbusy, enginesTurn_of_head? (he ▸ hturn), hi, exec_finalize_of_busy hbusy⟩, nofun⟩
  | reset => exact ⟨nofun, nofun, nofun, fun _ => rfl⟩
  | _ => exact absurd rfl hne

/-! ### Reset and placed bytes -/

/-- Settles O38: the turn of a reset is `applyReset`, which keeps the memory, the platform and the events. -/
theorem resetGivesSpecifiedValues : Obligations.ResetGivesSpecifiedValues := by
  unfold Obligations.ResetGivesSpecifiedValues
  intro s es hes
  have hstatus : statusWord (applyReset (setEvents es s)) = 0 := statusWord_of_errCode_zero rfl
  have hnone : engineInstr (applyReset (setEvents es s)) = none := engineInstr_none.2 (.inl nofun)
  exact ⟨applyReset (setEvents es s), step_of_event hes, rfl, rfl, rfl, rfl, hstatus, hnone, fun _ => rfl, rfl, rfl⟩

/-- A placed byte is read back. -/
theorem read_placeByte_same {s : State} (a : Nat) (b : Byte) (h : s.mem.wf = true) :
    (placeByte a b s).mem.read a = b := by
  rw [placeByte_mem]
  split
  · assumption
  · exact Memory.read_write_same a b h

theorem read_placeByte_other {s : State} {a c : Nat} (b : Byte) (hc : c ≠ a) :
    (placeByte a b s).mem.read c = s.mem.read c := read_placeByte_of_kept fun _ => hc

theorem turn_place {s : State} {a : Nat} (b : Byte) (ha : a < s.platform.space) :
    turn (.place a b) s = .next (placeByte a b s) := if_pos ha

/-- Settles O39: the turn is `placeByte`, whose memory and record the laws above describe. -/
theorem placedByteChangesOneByteOnly : Obligations.PlacedByteChangesOneByteOnly := by
  unfold Obligations.PlacedByteChangesOneByteOnly
  intro s a b es hes ha hwf
  have hrecord := placeByte_changed a b (setEvents es s)
  refine ⟨placeByte a b (setEvents es s), (step_of_event hes).trans (turn_place b ha), read_placeByte_same a b hwf,
    fun c hc => read_placeByte_other b hc, fun hbusy => hrecord.trans (if_pos hbusy.symm),
    fun hkept => hrecord.trans (if_neg fun hboth => hkept hboth.symm), rfl⟩

end Sys2Proof.Machine
end

section
/-! A string in the input byte space (20_memory.md R35, R46), the test of the broken duty over its addresses (R39), and
the placing of an argument (42_host_interface.md R106). -/

namespace Sys2Proof.Machine

open Sys2Proof.Config

/-! ### Addresses around the space -/

/-- How far an address lies above another, going round the space. -/
theorem distance_eq_iff {S r a j : Nat} (hr : r < S) (ha : a < S) (hj : j < S) :
    (a + S - r) % S = j ↔ (r + j) % S = a := by
  rcases Nat.lt_or_ge a r with har | har
  · rw [Nat.mod_eq_of_lt (by omega)]
    rcases Nat.lt_or_ge (r + j) S with hrj | hrj
    · rw [Nat.mod_eq_of_lt hrj]
      omega
    · rw [Nat.mod_eq_sub_mod hrj, Nat.mod_eq_of_lt (by omega)]
      omega
  · have hsub : a + S - r = (a - r) + S := by omega
    rw [hsub, Nat.add_mod_right, Nat.mod_eq_of_lt (by omega)]
    rcases Nat.lt_or_ge (r + j) S with hrj | hrj
    · rw [Nat.mod_eq_of_lt hrj]
      omega
    · rw [Nat.mod_eq_sub_mod hrj, Nat.mod_eq_of_lt (by omega)]
      omega

/-- Offsets below the size of the space give different addresses. -/
theorem offset_injective {S a i j : Nat} (hi : i < S) (hj : j < S) (h : (a + i) % S = (a + j) % S) : i = j := by
  have hmod : i % S = j % S := Nat.ModEq.add_left_cancel' a h
  rwa [Nat.mod_eq_of_lt hi, Nat.mod_eq_of_lt hj] at hmod

/-! ### The duty -/

/-- The test of the broken duty, by the distances of the changed addresses from the run's start. -/
theorem dutyBroken_iff {s : State} {k : Nat} (hstart : s.runStart.toNat < s.platform.space)
    (hk : k < s.platform.space) (hptr : s.ptr.toNat = (s.runStart.toNat + k) % s.platform.space)
    (hchanged : ∀ a ∈ s.changed, a < s.platform.space) :
    dutyBroken s = true ↔ ∃ j ≤ k, (s.runStart.toNat + j) % s.platform.space ∈ s.changed := by
  have hlen : (s.ptr.toNat + s.platform.space - s.runStart.toNat) % s.platform.space = k :=
    (distance_eq_iff hstart (hptr ▸ Nat.mod_lt _ (Platform.space_pos _)) hk).2 hptr.symm
  simp only [dutyBroken, List.any_eq_true, decide_eq_true_eq, hlen]
  constructor
  · rintro ⟨a, ha, hle⟩
    refine ⟨_, hle, ?_⟩
    rwa [(distance_eq_iff hstart (hchanged a ha) (Nat.lt_of_le_of_lt hle hk)).1 rfl]
  · rintro ⟨j, hj, hmem⟩
    refine ⟨_, hmem, ?_⟩
    rwa [(distance_eq_iff hstart (hchanged _ hmem) (Nat.lt_of_le_of_lt hj hk)).2 rfl]

/-- Settles O40: an address is changed and within the run's distance exactly when it is one the run reads. -/
theorem dutyIsBrokenExactlyOnTheInput : Obligations.DutyIsBrokenExactlyOnTheInput := by
  unfold Obligations.DutyIsBrokenExactlyOnTheInput
  exact fun _ _ hstart hk hptr hchanged => dutyBroken_iff hstart hk hptr hchanged

/-! ### A string and its terminator -/

/-- The string `xs` with its terminator stands at `a`, mod `2^ADDR_W`; past the string's end `getD` gives the
terminator. -/
def InputAt (p : Platform) (m : Memory) (a : Nat) (xs : List Byte) : Prop :=
  ∀ j ≤ xs.length, m.read ((a + j) % p.space) = xs.getD j 0

theorem inputBytes_getD {p : Platform} {m : Memory} {a n j : Nat} (hj : j < n) :
    (inputBytes p m a n).getD j 0 = m.read ((a + j) % p.space) := by
  induction n with
  | zero => omega
  | succ n ih =>
    rw [inputBytes]
    rcases Nat.lt_succ_iff_lt_or_eq.1 hj with hlt | rfl
    · rw [List.getD_append _ _ _ _ (by simpa using hlt), ih hlt]
    · rw [List.getD_append_right _ _ _ _ (by simp)]
      simp

/-- A string in memory in the terms of the statements. -/
theorem inputAt_iff {p : Platform} {m : Memory} {a : Nat} {xs : List Byte} :
    InputAt p m a xs ↔ inputBytes p m a xs.length = xs ∧ m.read ((a + xs.length) % p.space) = 0 := by
  constructor
  · intro h
    refine ⟨List.ext_getElem (inputBytes_length ..) fun j hj hj' => ?_, ?_⟩
    · rw [← List.getD_eq_getElem _ 0, ← List.getD_eq_getElem _ 0, inputBytes_getD hj', h j hj'.le]
    · rw [h _ (Nat.le_refl _), List.getD_eq_default _ _ (Nat.le_refl _)]
  · rintro ⟨hbytes, hend⟩ j hj
    rcases Nat.lt_or_eq_of_le hj with hlt | rfl
    · rw [← inputBytes_getD hlt, hbytes]
    · rw [hend, List.getD_eq_default _ _ (Nat.le_refl _)]

/-- A string stands at an address whatever number of rounds it is given by. -/
theorem inputAt_mod {p : Platform} {m : Memory} {a : Nat} {xs : List Byte} :
    InputAt p m (a % p.space) xs ↔ InputAt p m a xs := by
  simp only [InputAt, Nat.mod_add_mod]

/-- A terminated input is the string of its own bytes. -/
theorem inputAt_of_terminated {s : State} {a n : Nat} (h : Terminated s a n) :
    InputAt s.platform s.mem a (inputBytes s.platform s.mem a n) := by
  rw [inputAt_iff, inputBytes_length]
  exact ⟨rfl, h.2⟩

/-- A string of nonzero bytes is a terminated input. -/
theorem terminated_of_inputAt {s : State} {a : Nat} {xs : List Byte} (h : InputAt s.platform s.mem a xs)
    (hxs : ∀ b ∈ xs, b ≠ 0) : Terminated s a xs.length := by
  obtain ⟨hbytes, hend⟩ := inputAt_iff.1 h
  exact ⟨hbytes.symm ▸ hxs, hend⟩

/-- A byte of a string is nonzero where no byte of the string is zero. -/
theorem getD_ne_zero {xs : List Byte} (hxs : ∀ b ∈ xs, b ≠ 0) {j : Nat} (hj : j < xs.length) : xs.getD j 0 ≠ 0 := by
  rw [List.getD_eq_getElem _ 0 hj]
  exact hxs _ (List.getElem_mem hj)

/-- A terminated string is shorter than the space: one round on, the terminator would be one of its bytes. -/
theorem inputAt_length_lt {p : Platform} {m : Memory} {a : Nat} {xs : List Byte} (h : InputAt p m a xs)
    (hxs : ∀ b ∈ xs, b ≠ 0) : xs.length < p.space := by
  by_contra hge
  have hpos := Platform.space_pos p
  have hround : (a + xs.length) % p.space = (a + (xs.length - p.space)) % p.space := by
    rw [← Nat.add_mod_right (a + (xs.length - p.space))]
    congr 1
    omega
  have hend : xs.getD xs.length 0 = xs.getD (xs.length - p.space) 0 := by
    rw [← h _ (Nat.le_refl _), ← h _ (Nat.sub_le _ _), hround]
  rw [List.getD_eq_default _ _ (Nat.le_refl _)] at hend
  exact getD_ne_zero hxs (by omega) hend.symm

/-- A byte placed at none of a string's addresses leaves the string. -/
theorem inputAt_placeByte {s : State} {c a : Nat} {b : Byte} {xs : List Byte} (h : InputAt s.platform s.mem a xs)
    (hc : ∀ j ≤ xs.length, c ≠ (a + j) % s.platform.space) : InputAt s.platform (placeByte c b s).mem a xs := by
  intro j hj
  rw [read_placeByte_other b (Ne.symm (hc j hj)), h j hj]

/-! ### Placing an argument -/

/-- Each cell's byte stands at its address. -/
def CellsStand (m : Memory) (cells : List Host.Cell) : Prop := ∀ c ∈ cells, m.read c.1 = c.2

/-- Placing one more cell, at an address of its own, keeps those that stand. -/
theorem cellsStand_placeByte {s : State} {cells : List Host.Cell} {c : Host.Cell} (hwf : s.mem.wf = true)
    (h : CellsStand s.mem cells) (hc : c.1 ∉ cells.map Prod.fst) :
    CellsStand (placeByte c.1 c.2 s).mem (cells ++ [c]) := by
  intro d hd
  rcases List.mem_append.1 hd with hd | hd
  · have hne : d.1 ≠ c.1 := fun heq => hc (heq ▸ List.mem_map_of_mem hd)
    rw [read_placeByte_other c.2 hne, h d hd]
  · rw [List.mem_singleton.1 hd]
    exact read_placeByte_same c.1 c.2 hwf

theorem argumentCells_length (p : Platform) (a : Nat) (xs : List Byte) :
    (argumentCells p a xs).length = xs.length + 1 := by
  simp [argumentCells]

/-- Cell `j` of an argument is its byte `j`, the terminator last. -/
theorem argumentCells_getElem {p : Platform} {a : Nat} {xs : List Byte} {j : Nat} (hj : j < xs.length + 1) :
    (argumentCells p a xs)[j]'(by rwa [argumentCells_length]) = ((a + j) % p.space, xs.getD j 0) := by
  have hbyte : (xs ++ [0])[j]'(by simpa using hj) = xs.getD j 0 := by
    rcases Nat.lt_succ_iff_lt_or_eq.1 hj with hlt | rfl
    · rw [List.getElem_append_left hlt, List.getD_eq_getElem _ 0 hlt]
    · simp
  simp only [argumentCells, List.getElem_map, List.getElem_zipIdx, Nat.zero_add, hbyte]

/-- An argument that fits with its terminator has a cell for each of its addresses. -/
theorem argumentCells_nodup {p : Platform} {a : Nat} {xs : List Byte} (hfit : xs.length < p.space) :
    ((argumentCells p a xs).map Prod.fst).Nodup := by
  rw [List.nodup_iff_injective_get]
  intro i j hij
  have hi : i.val < xs.length + 1 := by simpa [argumentCells_length] using i.isLt
  have hj : j.val < xs.length + 1 := by simpa [argumentCells_length] using j.isLt
  simp only [List.get_eq_getElem, List.getElem_map, argumentCells_getElem hi, argumentCells_getElem hj] at hij
  exact Fin.ext (offset_injective (by omega) (by omega) hij)

theorem argumentCells_lt {p : Platform} {a : Nat} {xs : List Byte} : ∀ c ∈ argumentCells p a xs, c.1 < p.space := by
  intro c hc
  simp only [argumentCells, List.mem_map] at hc
  obtain ⟨bi, -, rfl⟩ := hc
  exact Nat.mod_lt _ (Platform.space_pos p)

/-- An argument whose cells stand is the terminated string. -/
theorem inputAt_of_cellsStand {p : Platform} {m : Memory} {a : Nat} {xs : List Byte}
    (h : CellsStand m (argumentCells p a xs)) : InputAt p m a xs := by
  intro j hj
  have hj : j < xs.length + 1 := Nat.lt_succ_of_le hj
  have hmem := List.getElem_mem (l := argumentCells p a xs) (n := j) (by rwa [argumentCells_length])
  rw [argumentCells_getElem hj] at hmem
  exact h _ hmem

/-- The events that place cells at addresses of their own leave them standing, beside those that stood, and write the
memory and the record of changed bytes only. -/
theorem steps_place {s : State} {stood cells : List Host.Cell} (hwf : s.mem.wf = true)
    (hevents : s.events = cells.map fun c => .place c.1 c.2) (hlt : ∀ c ∈ cells, c.1 < s.platform.space)
    (hnodup : ((stood ++ cells).map Prod.fst).Nodup) (hstood : CellsStand s.mem stood) :
    ∃ t, steps cells.length s = .next t ∧ CellsStand t.mem (stood ++ cells) ∧
      t = { s with mem := t.mem, changed := t.changed, events := [] } := by
  induction cells generalizing s stood with
  | nil =>
    refine ⟨s, steps_zero s, by rwa [List.append_nil], ?_⟩
    rw [← (show s.events = [] from hevents)]
  | cons c cells ih =>
    have hsplit : stood ++ c :: cells = (stood ++ [c]) ++ cells := List.append_cons stood c cells
    have hc : c.1 ∉ stood.map Prod.fst := by
      rw [List.map_append, List.map_cons] at hnodup
      exact fun hmem => List.disjoint_of_nodup_append hnodup hmem List.mem_cons_self
    have hstep := (step_of_event hevents).trans (turn_place c.2 (hlt c List.mem_cons_self))
    obtain ⟨t, hrun, hstand, hframe⟩ :=
      ih (s := placeByte c.1 c.2 (setEvents (cells.map fun d => .place d.1 d.2) s)) (stood := stood ++ [c])
        (placeByte_mem_wf c.1 c.2 hwf) rfl (fun d hd => hlt d (List.mem_cons_of_mem c hd)) (hsplit ▸ hnodup)
        (cellsStand_placeByte hwf hstood hc)
    refine ⟨t, ?_, hsplit ▸ hstand, hframe⟩
    rw [List.length_cons, steps_succ_of_next _ hstep, hrun]

/-- Settles O50: an argument that fits has an address of its own for each cell, and the cells that then stand are the
terminated string. -/
theorem placedArgumentIsTerminatedInput : Obligations.PlacedArgumentIsTerminatedInput := by
  unfold Obligations.PlacedArgumentIsTerminatedInput
  intro s a xs hwf hfit hxs hevents
  obtain ⟨t, hrun, hstand, hframe⟩ := steps_place (stood := []) hwf hevents argumentCells_lt
    (argumentCells_nodup hfit) nofun
  have hplatform : t.platform = s.platform := by rw [hframe]
  have hnil : t.events = [] := by rw [hframe]
  have hinput : InputAt t.platform t.mem (a % s.platform.space) xs := by
    rw [hplatform, inputAt_mod]
    exact inputAt_of_cellsStand hstand
  rw [argumentCells_length] at hrun
  exact ⟨t, hrun, hnil, terminated_of_inputAt hinput hxs, (inputAt_iff.1 hinput).1, by rw [hnil]; exact hframe⟩

end Sys2Proof.Machine
end

section
/-! Whole runs of the engine (40_djb2_hash_engine.md section 4): what holds of a run over a string that stands still in
memory, from its START to DONE, under any events that leave the string alone; and the run that finds no terminator. -/

namespace Sys2Proof.Machine

open Sys2Proof.Config

/-! ### A run over a string that stands still -/

/-- The run in progress, or just finished, is over the string `xs` at its start: it has absorbed a beginning of `xs`,
and neither the string nor its terminator has been changed since the START (20_memory.md R39). -/
structure RunsOver (xs : List Byte) (s : State) : Prop where
  follows : s.Follows
  absorbed : s.consumed <+: xs
  input : InputAt s.platform s.mem s.runStart.toNat xs
  nonzero : ∀ b ∈ xs, b ≠ 0
  start : s.runStart.toNat < s.platform.space
  inSpace : ∀ a ∈ s.changed, a < s.platform.space
  still : ∀ a ∈ s.changed, ∀ j ≤ xs.length, a ≠ (s.runStart.toNat + j) % s.platform.space
  errCode : s.errCode = 0

theorem RunsOver.length_le {s : State} {xs : List Byte} (h : RunsOver xs s) : s.consumed.length ≤ xs.length :=
  h.absorbed.length_le

theorem RunsOver.ptr_toNat {s : State} {xs : List Byte} (h : RunsOver xs s) :
    s.ptr.toNat = (s.runStart.toNat + s.consumed.length) % s.platform.space := by
  rw [h.follows.ptr, wrapAddress_toNat]

/-- The byte at PTR is the string's next byte, or its terminator. -/
theorem RunsOver.fetchByte_eq {s : State} {xs : List Byte} (h : RunsOver xs s) :
    fetchByte s = xs.getD s.consumed.length 0 := by
  rw [fetchByte, h.ptr_toNat, h.input _ h.length_le]

/-- A run over a string that stands still keeps the duty of 20_memory.md R39. -/
theorem RunsOver.dutyBroken_eq {s : State} {xs : List Byte} (h : RunsOver xs s) : dutyBroken s = false := by
  have hlen : s.consumed.length < s.platform.space :=
    Nat.lt_of_le_of_lt h.length_le (inputAt_length_lt h.input h.nonzero)
  rw [← Bool.not_eq_true, dutyBroken_iff h.start hlen h.ptr_toNat h.inSpace]
  rintro ⟨j, hj, hmem⟩
  exact h.still _ hmem j (hj.trans h.length_le) rfl

/-- A START over a string in memory begins a run over it (40_djb2_hash_engine.md R67). -/
theorem runsOver_init {s : State} {xs : List Byte} (h : InputAt s.platform s.mem s.base.toNat xs)
    (hxs : ∀ b ∈ xs, b ≠ 0) : RunsOver xs (init s) where
  follows := follows_init s
  absorbed := List.nil_prefix
  input := by
    rw [init_runStart, startAddress_toNat]
    exact inputAt_mod.2 h
  nonzero := hxs
  start := startAddress_lt s
  inSpace := nofun
  still := nofun
  errCode := rfl

/-- Being a run over a string does not depend on STATE, BASE, RESULT, the returned DATA, the events or the count. -/
theorem RunsOver.frame {xs : List Byte} {s : State} (h : RunsOver xs s) (st : RunState) (base result rdData : Word)
    (events : List Event) (freeCount : Nat) :
    RunsOver xs
      { s with st := st, base := base, result := result, rdData := rdData, events := events, freeCount := freeCount } :=
  ⟨⟨h.follows.ptr, h.follows.len, h.follows.acc⟩, h.absorbed, h.input, h.nonzero, h.start, h.inSpace, h.still,
    h.errCode⟩

theorem runsOver_returnData {s : State} {xs : List Byte} (v : Word) (h : RunsOver xs s) :
    RunsOver xs (returnData v s) := h.frame s.st s.base s.result v s.events s.freeCount

theorem runsOver_writeBase {s : State} {xs : List Byte} (v : Word) (h : RunsOver xs s) :
    RunsOver xs (writeBase v s) := h.frame s.st _ s.result s.rdData s.events s.freeCount

theorem runsOver_finalizeRun {s : State} {xs : List Byte} (h : RunsOver xs s) : RunsOver xs (finalizeRun s) :=
  h.frame .done s.base _ s.rdData s.events _

/-- A byte placed at none of the string's addresses leaves the run over the string. -/
theorem runsOver_placeByte {s : State} {xs : List Byte} {a : Nat} (b : Byte) (h : RunsOver xs s)
    (ha : a < s.platform.space) (hclear : ∀ j ≤ xs.length, a ≠ (s.runStart.toNat + j) % s.platform.space) :
    RunsOver xs (placeByte a b s) := by
  refine ⟨⟨h.follows.ptr, h.follows.len, h.follows.acc⟩, h.absorbed, inputAt_placeByte h.input hclear, h.nonzero,
    h.start, placeByte_changed_lt b ha h.inSpace, fun c hc => ?_, h.errCode⟩
  rw [placeByte_changed] at hc
  split at hc
  · rcases List.mem_cons.1 hc with rfl | hc
    · exact hclear
    · exact h.still c hc
  · exact h.still c hc

/-- The next byte of the string is absorbed. -/
theorem runsOver_absorbByte {s : State} {xs : List Byte} (h : RunsOver xs s) (hlt : s.consumed.length < xs.length) :
    RunsOver xs (absorbByte (xs.getD s.consumed.length 0) s) := by
  refine ⟨follows_absorbByte h.follows _, ?_, h.input, h.nonzero, h.start, h.inSpace, h.still, h.errCode⟩
  rw [absorbByte_consumed, List.getD_eq_getElem _ 0 hlt]
  rw [List.prefix_iff_eq_take, List.length_append, List.length_singleton, List.take_succ_eq_append_getElem hlt,
    ← List.prefix_iff_eq_take.1 h.absorbed]

/-! ### The engine's step in such a run -/

/-- What the engine's step makes of a run over `xs`: one byte more, or DONE with COMPUTE where all are absorbed. -/
structure Advances (xs : List Byte) (s t : State) : Prop where
  run : RunsOver xs t
  platform : t.platform = s.platform
  start : t.runStart = s.runStart
  events : t.events = s.events
  absorbs : s.consumed.length < xs.length →
    t.st = .busy ∧ t.consumed.length = s.consumed.length + 1 ∧ t.result = s.result
  finishes : s.consumed.length = xs.length → t.st = .done ∧ t.consumed = xs ∧ t.result = compute xs

/-- A run that has absorbed the whole string has absorbed it. -/
theorem RunsOver.consumed_eq {s : State} {xs : List Byte} (h : RunsOver xs s) (hlen : s.consumed.length = xs.length) :
    s.consumed = xs := h.absorbed.eq_of_length hlen

/-- At a readable PTR the engine of a run over a string has an instruction, and it advances the run. -/
theorem RunsOver.engine {s : State} {xs : List Byte} (h : RunsOver xs s) (hbusy : s.st = .busy)
    (hread : readable s.platform s.ptr.toNat = true) :
    ∃ i t, engineInstr s = some i ∧ exec i s = .next t ∧ Advances xs s t := by
  have hi : engineInstr s = some (decodeByte (xs.getD s.consumed.length 0)) :=
    engineInstr_some.2 ⟨hbusy, hread, by rw [h.fetchByte_eq]⟩
  rcases Nat.lt_or_eq_of_le h.length_le with hlt | hend
  · rw [decodeByte, if_neg (getD_ne_zero h.nonzero hlt)] at hi
    refine ⟨_, _, hi, exec_absorb_of_busy _ hbusy, runsOver_absorbByte h hlt, rfl, rfl, rfl,
      fun _ => ⟨hbusy, ?_, rfl⟩, fun hend => ?_⟩
    · rw [absorbByte_consumed, List.length_append, List.length_singleton]
    · exact absurd hend (Nat.ne_of_lt hlt)
  · rw [List.getD_eq_default _ _ hend.ge] at hi
    refine ⟨_, _, hi, exec_finalize_of_busy hbusy, runsOver_finalizeRun h, rfl, rfl, rfl, fun hlt => ?_,
      fun _ => ⟨rfl, h.consumed_eq hend, ?_⟩⟩
    · exact absurd hend (Nat.ne_of_lt hlt)
    · rw [finalizeRun_result, finalResult_of_follows h.follows h.dutyBroken_eq, h.consumed_eq hend]

/-- With no event pending the step of such a run is the engine's. -/
theorem RunsOver.step_quiet {s : State} {xs : List Byte} (h : RunsOver xs s) (hbusy : s.st = .busy)
    (hes : s.events = []) (hread : readable s.platform s.ptr.toNat = true) :
    ∃ t, step s = .next t ∧ Advances xs s t := by
  obtain ⟨i, t, hi, hexec, hadv⟩ := h.engine hbusy hread
  exact ⟨t, by rw [step_of_nil hes, quietTurn_of_some hi, hexec], hadv⟩

/-! ### The engine alone -/

/-- The addresses that a run over `xs` reads may all be read. -/
def RunReadable (s : State) (xs : List Byte) : Prop := ReadableInput s s.runStart.toNat xs.length

theorem RunsOver.readable_ptr {s : State} {xs : List Byte} (h : RunsOver xs s) (hread : RunReadable s xs) :
    readable s.platform s.ptr.toNat = true := by
  rw [h.ptr_toNat]
  exact hread _ h.length_le

theorem RunReadable.of_eq {s t : State} {xs : List Byte} (h : RunReadable s xs) (hp : t.platform = s.platform)
    (hr : t.runStart = s.runStart) : RunReadable t xs := by
  rw [RunReadable, ReadableInput, hp, hr]
  exact h

/-- After `k` steps of the engine alone a new run over `xs` has absorbed `k` bytes and written no RESULT. -/
structure AloneAfter (xs : List Byte) (s : State) (k : Nat) (t : State) : Prop where
  run : RunsOver xs t
  busy : t.st = .busy
  count : t.consumed.length = k
  result : t.result = s.result
  events : t.events = []
  platform : t.platform = s.platform
  start : t.runStart = s.runStart

/-- The engine alone absorbs the string byte by byte (40_djb2_hash_engine.md R71). -/
theorem RunsOver.steps_absorb {s : State} {xs : List Byte} (h : RunsOver xs s) (hbusy : s.st = .busy)
    (hnew : s.consumed = []) (hes : s.events = []) (hread : RunReadable s xs) {k : Nat} (hk : k ≤ xs.length) :
    ∃ t, steps k s = .next t ∧ AloneAfter xs s k t := by
  induction k with
  | zero => exact ⟨s, steps_zero s, h, hbusy, by rw [hnew]; rfl, rfl, hes, rfl, rfl⟩
  | succ k ih =>
    obtain ⟨t, hrun, ht⟩ := ih (Nat.le_of_succ_le hk)
    obtain ⟨u, hstep, hadv⟩ := ht.run.step_quiet ht.busy ht.events
      (ht.run.readable_ptr (hread.of_eq ht.platform ht.start))
    obtain ⟨hubusy, hucount, huresult⟩ := hadv.absorbs (by rw [ht.count]; exact hk)
    refine ⟨u, ?_, hadv.run, hubusy, by rw [hucount, ht.count], huresult.trans ht.result, hadv.events.trans ht.events,
      hadv.platform.trans ht.platform, hadv.start.trans ht.start⟩
    rw [steps_add 1 hrun, steps_succ_of_next 0 hstep, steps_zero]

/-- After the string's bytes the engine alone finalises (40_djb2_hash_engine.md R71). -/
theorem RunsOver.steps_finish {s : State} {xs : List Byte} (h : RunsOver xs s) (hbusy : s.st = .busy)
    (hnew : s.consumed = []) (hes : s.events = []) (hread : RunReadable s xs) :
    ∃ t, steps (xs.length + 1) s = .next t ∧ RunsOver xs t ∧ t.st = .done ∧ t.consumed = xs ∧ t.result = compute xs ∧
      t.platform = s.platform ∧ t.runStart = s.runStart := by
  obtain ⟨t, hrun, ht⟩ := h.steps_absorb hbusy hnew hes hread (Nat.le_refl _)
  obtain ⟨u, hstep, hadv⟩ := ht.run.step_quiet ht.busy ht.events
    (ht.run.readable_ptr (hread.of_eq ht.platform ht.start))
  obtain ⟨hdone, hall, hresult⟩ := hadv.finishes ht.count
  refine ⟨u, ?_, hadv.run, hdone, hall, hresult, hadv.platform.trans ht.platform, hadv.start.trans ht.start⟩
  rw [steps_add 1 hrun, steps_succ_of_next 0 hstep, steps_zero]

/-! ### A START and then the engine alone -/

/-- The turn of a START outside BUSY is INIT. -/
theorem turn_start {s : State} (hidle : s.st ≠ .busy) :
    turn (.host (accessOf s.platform 0b100 0x00000003)) s = .next (init s) := by
  have hword : exec (.wrCtrl 0x00000003) s = .next (init s) := by rw [exec_start_eq (.inr rfl), if_neg hidle]
  exact (turn_accessOf s 0b100 0x00000003).trans hword

/-- A pended START that is accepted is INIT. -/
theorem step_start {s : State} (hidle : s.st ≠ .busy)
    (hes : s.events = [.host (accessOf s.platform 0b100 0x00000003)]) : step s = .next (init (setEvents [] s)) := by
  rw [step_of_event hes]
  exact turn_start (s := setEvents [] s) hidle

/-- The string that a run started in `s` reads, given as the statements give it. -/
theorem runsOver_start {s : State} {n : Nat} (hterm : Terminated s (s.base.toNat % s.platform.space) n)
    (hread : ReadableInput s (s.base.toNat % s.platform.space) n) :
    RunsOver (inputBytes s.platform s.mem (s.base.toNat % s.platform.space) n) (init (setEvents [] s)) ∧
      RunReadable (init (setEvents [] s)) (inputBytes s.platform s.mem (s.base.toNat % s.platform.space) n) := by
  refine ⟨runsOver_init (inputAt_mod.1 (inputAt_of_terminated hterm)) hterm.1, ?_⟩
  rw [RunReadable, inputBytes_length, init_runStart, startAddress_toNat]
  exact hread

/-- Settles O45: the accepted START begins a run over the input, which the engine alone absorbs and finalises; PACK's
fields are the string's length and hash. -/
theorem runComputesPackedResult : Obligations.RunComputesPackedResult := by
  unfold Obligations.RunComputesPackedResult
  intro s n hidle hes hterm hread
  have hstep := step_start hidle hes
  obtain ⟨hrun, hreadable⟩ := runsOver_start hterm hread
  have hlen := inputBytes_length s.platform s.mem (s.base.toNat % s.platform.space) n
  generalize inputBytes s.platform s.mem (s.base.toNat % s.platform.space) n = xs at hrun hreadable hlen ⊢
  subst hlen
  refine ⟨fun k hk => ?busy, ?done⟩
  case busy =>
    obtain ⟨u, hu, halone⟩ := hrun.steps_absorb rfl rfl rfl hreadable hk
    exact ⟨u, by rw [steps_succ_of_next _ hstep, hu], halone.busy, halone.result⟩
  case done =>
    obtain ⟨t, ht, hover, hdone, hall, hresult, hplatform, hstart⟩ := hrun.steps_finish rfl rfl rfl hreadable
    have hpacked : t.result = BitVec.ofNat 8 xs.length ++ (djb2 32 xs).setWidth 24 := by
      rw [hresult, compute, pack_eq_append]
    refine ⟨t, by rw [steps_succ_of_next _ hstep, ht], hdone, hover.errCode, hresult, ?lengthByte, ?hash, ?ptr⟩
    case lengthByte => rw [hpacked, BitVec.extractLsb'_append_eq_left, BitVec.toNat_ofNat]
    case hash => rw [hpacked, BitVec.extractLsb'_append_eq_right, djb2_setWidth (by decide)]
    case ptr =>
      rw [hover.ptr_toNat, hall, hplatform, hstart, init_runStart, startAddress_toNat]
      exact Nat.mod_add_mod _ _ _

/-- Settles O46: at the end of either run RESULT, ACC and LEN are functions of the one string. -/
theorem runsOverEqualInputAgree : Obligations.RunsOverEqualInputAgree := by
  unfold Obligations.RunsOverEqualInputAgree
  intro s u n hs hu hsev huev hsterm huterm hsread huread heq
  obtain ⟨hsrun, hsreadable⟩ := runsOver_start hsterm hsread
  obtain ⟨hurun, hureadable⟩ := runsOver_start huterm huread
  have hlen := inputBytes_length u.platform u.mem (u.base.toNat % u.platform.space) n
  rw [heq] at hsrun hsreadable
  generalize inputBytes u.platform u.mem (u.base.toNat % u.platform.space) n = xs at *
  subst hlen
  obtain ⟨t, ht, htover, htdone, htall, htresult, -, -⟩ := hsrun.steps_finish rfl rfl rfl hsreadable
  obtain ⟨v, hv, hvover, hvdone, hvall, hvresult, -, -⟩ := hurun.steps_finish rfl rfl rfl hureadable
  refine ⟨t, v, by rw [steps_succ_of_next _ (step_start hs hsev), ht],
    by rw [steps_succ_of_next _ (step_start hu huev), hv], htdone, hvdone, htresult.trans hvresult.symm, ?acc, ?len⟩
  case acc => rw [htover.follows.acc, hvover.follows.acc, htall, hvall]
  case len =>
    apply BitVec.eq_of_toNat_eq
    rw [htover.follows.len, hvover.follows.len, htall, hvall]

/-! ### A run without a terminator -/

/-- Settles O47: with no zero byte in the space every step absorbs one, and PTR goes round. -/
theorem runWithoutTerminatorNeverEnds : Obligations.RunWithoutTerminatorNeverEnds := by
  unfold Obligations.RunWithoutTerminatorNeverEnds
  intro s hes hbusy hptr hbytes hread n
  induction n generalizing s with
  | zero => exact ⟨s, steps_zero s, hbusy, rfl, by rw [Nat.add_zero, Nat.mod_eq_of_lt hptr]⟩
  | succ n ih =>
    have hi : engineInstr s = some (.absorb (fetchByte s)) :=
      engineInstr_some.2 ⟨hbusy, hread _ hptr, (if_neg (hbytes _ hptr)).symm⟩
    have hstep : step s = .next (absorbByte (fetchByte s) s) := by
      rw [step_of_nil hes, quietTurn_of_some hi, exec_absorb_of_busy _ hbusy]
    obtain ⟨t, hrun, htbusy, htresult, htptr⟩ :=
      ih (absorbByte (fetchByte s) s) hes hbusy (wrapAddress_lt _ _) hbytes hread
    refine ⟨t, by rw [steps_succ_of_next _ hstep, hrun], htbusy, htresult, ?_⟩
    rw [htptr, absorbByte_ptr, absorbByte_platform, wrapAddress_toNat, Nat.mod_add_mod, Nat.add_assoc, Nat.add_comm 1 n]

end Sys2Proof.Machine
end

section
/-! The host program of an invocation under every schedule (30_encoding.md R61, 42_host_interface.md R106): the stages
it goes through, what a turn of either agent makes of each, and what it has read and prints at its end. -/

namespace Sys2Proof.Machine

open Sys2Proof.Config

/-! ### The turns of the host's lines -/

theorem turn_wrBase (a : Word) (s : State) : turn (hostEvent s.platform (.wrBase a)) s = .next (writeBase a s) :=
  turn_accessOf s 0b110 a

theorem turn_startAbsent {s : State} (hidle : s.st ≠ .busy) :
    turn (hostEvent s.platform .startAbsent) s = .next (raiseInvalidInput s) := by
  have hword : exec (.wrCtrl 0x00000001) s = .next (raiseInvalidInput s) := by
    rw [exec_startAbsent_eq (.inr rfl), if_neg hidle]
  exact (turn_accessOf s 0b100 0x00000001).trans hword

theorem turn_wait (s : State) : turn (hostEvent s.platform .wait) s = .next (returnData (statusWord s) s) :=
  turn_accessOf s 0b001 0

theorem turn_rdResult (s : State) : turn (hostEvent s.platform .rdResult) s = .next (returnData s.result s) :=
  turn_accessOf s 0b011 0

/-- A line other than `wait` is done in one turn. -/
theorem hostTurn_line {h : Session} {l : HostLine} {rest : List HostLine} {t : State} (hprog : h.prog = l :: rest)
    (hl : l ≠ .wait) (ht : turn (hostEvent h.machine.platform l) h.machine = .next t) :
    hostTurn h =
      .next { machine := t, prog := rest, reads := if hostReads l then h.reads ++ [t.rdData] else h.reads } := by
  simp only [hostTurn, hprog, ht, hl, false_and, if_false]

/-- `wait` reads STATUS and stays while it shows neither DONE nor ERROR. -/
theorem hostTurn_wait {h : Session} {rest : List HostLine} (hprog : h.prog = .wait :: rest) :
    hostTurn h =
      .next { machine := returnData (statusWord h.machine) h.machine
              prog := if statusFinished (statusWord h.machine) = false then .wait :: rest else rest
              reads := h.reads } := by
  simp [hostTurn, hprog, turn_wait, hostReads]

theorem hostTurn_of_nil {h : Session} (hprog : h.prog = []) : hostTurn h = .next h := by
  simp only [hostTurn, hprog]

theorem engineTurn_of_next {h : Session} {t : State} (ht : turn .engine h.machine = .next t) :
    engineTurn h = .next { h with machine := t } := by
  simp only [engineTurn, ht]

/-- Where the engine has no step its turn leaves the session. -/
theorem engineTurn_of_none {h : Session} (hi : engineInstr h.machine = none) : engineTurn h = .next h :=
  engineTurn_of_next (turn_engine_of_none hi)

/-! ### The lines of an invocation -/

/-- `hash a` written out (30_encoding.md R61). -/
def hashLines (a : Word) : List HostLine := [.wrBase a, .start, .wait, .rdResult]

/-- The lines that place cells. -/
def placeLines (cells : List Host.Cell) : List HostLine := cells.map fun c => .place c.1 c.2

theorem hash_prog (s : State) (a : Word) : (sessionOf s [.hash a]).prog = hashLines a := rfl

theorem flatMap_hostExpand_placeLines (cells : List Host.Cell) :
    (placeLines cells).flatMap hostExpand = placeLines cells := by
  induction cells with
  | nil => rfl
  | cons c cells ih => exact congrArg (HostLine.place c.1 c.2 :: ·) ih

theorem invocation_prog (s : State) (xs : List Byte) (a : Word) :
    (invocation s (some xs) a).prog = placeLines (argumentCells s.platform a.toNat xs) ++ hashLines a := by
  change (placeLines (argumentCells s.platform a.toNat xs) ++ [HostLine.hash a]).flatMap hostExpand = _
  rw [List.flatMap_append, flatMap_hostExpand_placeLines]
  rfl

/-! ### The stages -/

/-- The host has still to place the string `xs`, write BASE and start, outside BUSY; the number is its turns up to the
accepted START. -/
inductive Preparing (p : Platform) (a : Word) (xs : List Byte) : Nat → Session → Prop
  /-- A cell is to be placed, those before it stand, and those after it follow. -/
  | placing {h : Session} {stood cells : List Host.Cell} {c : Host.Cell} (hplatform : h.machine.platform = p)
      (hidle : h.machine.st ≠ .busy) (hreads : h.reads = []) (hprog : h.prog = placeLines (c :: cells) ++ hashLines a)
      (hcells : stood ++ c :: cells = argumentCells p a.toNat xs) (hfit : xs.length < p.space)
      (hwf : h.machine.mem.wf = true) (hstood : CellsStand h.machine.mem stood) :
      Preparing p a xs (cells.length + 3) h
  /-- The string stands, and BASE is to be written. -/
  | standing {h : Session} (hplatform : h.machine.platform = p) (hidle : h.machine.st ≠ .busy) (hreads : h.reads = [])
      (hprog : h.prog = hashLines a) (hinput : InputAt p h.machine.mem a.toNat xs) : Preparing p a xs 2 h
  /-- BASE is written, and START is next. -/
  | starting {h : Session} (hplatform : h.machine.platform = p) (hidle : h.machine.st ≠ .busy) (hreads : h.reads = [])
      (hprog : h.prog = [.start, .wait, .rdResult]) (hinput : InputAt p h.machine.mem a.toNat xs)
      (hbase : h.machine.base.toNat = a.toNat % p.space) : Preparing p a xs 1 h

/-- The run over `xs` is in progress and has absorbed `k` bytes; the host waits for it. -/
structure Waiting (p : Platform) (a : Word) (xs : List Byte) (k : Nat) (h : Session) : Prop where
  platform : h.machine.platform = p
  prog : h.prog = [.wait, .rdResult]
  reads : h.reads = []
  run : RunsOver xs h.machine
  busy : h.machine.st = .busy
  count : h.machine.consumed.length = k
  start : h.machine.runStart.toNat = a.toNat % p.space

/-- The run has ended in DONE with COMPUTE; the number is the host's turns up to the program's end. -/
inductive Finished (xs : List Byte) : Nat → Session → Prop
  /-- `wait` has not yet seen it. -/
  | waiting {h : Session} (hdone : h.machine.st = .done) (hresult : h.machine.result = compute xs)
      (hprog : h.prog = [.wait, .rdResult]) (hreads : h.reads = []) : Finished xs 2 h
  /-- RESULT is to be read. -/
  | reading {h : Session} (hdone : h.machine.st = .done) (hresult : h.machine.result = compute xs)
      (hprog : h.prog = [.rdResult]) (hreads : h.reads = []) : Finished xs 1 h
  /-- RESULT is read. -/
  | ended {h : Session} (hdone : h.machine.st = .done) (hprog : h.prog = []) (hreads : h.reads = [compute xs]) :
      Finished xs 0 h

variable {p : Platform} {a : Word} {xs : List Byte}

/-- Cells to be placed after those that stand; where none is left the string stands. -/
theorem preparing_of_cells {h : Session} {stood cells : List Host.Cell} (hplatform : h.machine.platform = p)
    (hidle : h.machine.st ≠ .busy) (hreads : h.reads = []) (hprog : h.prog = placeLines cells ++ hashLines a)
    (hcells : stood ++ cells = argumentCells p a.toNat xs) (hfit : xs.length < p.space)
    (hwf : h.machine.mem.wf = true) (hstood : CellsStand h.machine.mem stood) :
    Preparing p a xs (cells.length + 2) h := by
  cases cells with
  | nil =>
    rw [List.append_nil] at hcells
    exact .standing hplatform hidle hreads hprog (inputAt_of_cellsStand (hcells ▸ hstood))
  | cons c cells => exact .placing hplatform hidle hreads hprog hcells hfit hwf hstood

theorem preparing_invocation {s : State} (hidle : s.st ≠ .busy) (hwf : s.mem.wf = true)
    (hfit : xs.length < s.platform.space) :
    Preparing s.platform a xs (xs.length + 3) (invocation s (some xs) a) := by
  have h := preparing_of_cells (h := invocation s (some xs) a) (stood := []) rfl hidle rfl (invocation_prog s xs a) rfl
    hfit hwf nofun
  rwa [argumentCells_length] at h

theorem preparing_hash {s : State} (hidle : s.st ≠ .busy) (hinput : InputAt s.platform s.mem a.toNat xs) :
    Preparing s.platform a xs 2 (sessionOf s [.hash a]) := .standing rfl hidle rfl (hash_prog s a) hinput

/-! ### The host's turn in each stage -/

theorem Preparing.idle {m : Nat} {h : Session} (hh : Preparing p a xs m h) : h.machine.st ≠ .busy := by
  cases hh <;> assumption

theorem Preparing.prog_ne_nil {m : Nat} {h : Session} (hh : Preparing p a xs m h) : h.prog ≠ [] := by
  cases hh with
  | placing _ _ _ hprog _ _ _ _ => exact fun hnil => nomatch hprog.symm.trans hnil
  | standing _ _ _ hprog _ => exact fun hnil => nomatch hprog.symm.trans hnil
  | starting _ _ _ hprog _ _ => exact fun hnil => nomatch hprog.symm.trans hnil

theorem Preparing.pos {m : Nat} {h : Session} (hh : Preparing p a xs m h) : 0 < m := by
  cases hh <;> exact Nat.succ_pos _

/-- The host's turn brings the accepted START one turn nearer, or is it. -/
theorem Preparing.host {m : Nat} {h : Session} (hxs : ∀ b ∈ xs, b ≠ 0) (hh : Preparing p a xs (m + 1) h) :
    ∃ h', hostTurn h = .next h' ∧ (Preparing p a xs m h' ∨ m = 0 ∧ Waiting p a xs 0 h') := by
  cases hh with
  | @placing _ stood cells c hplatform hidle hreads hprog hcells hfit hwf hstood =>
    subst hplatform
    have hmem : c ∈ argumentCells h.machine.platform a.toNat xs := by rw [← hcells]; simp
    have hnodup := argumentCells_nodup (a := a.toNat) hfit
    rw [← hcells, List.map_append, List.map_cons] at hnodup
    have hc : c.1 ∉ stood.map Prod.fst := fun hmem => List.disjoint_of_nodup_append hnodup hmem List.mem_cons_self
    refine ⟨_, hostTurn_line hprog nofun (turn_place c.2 (argumentCells_lt c hmem)), .inl ?_⟩
    exact preparing_of_cells (stood := stood ++ [c]) rfl hidle hreads rfl ((List.append_cons ..).symm.trans hcells) hfit
      (placeByte_mem_wf c.1 c.2 hwf) (cellsStand_placeByte hwf hstood hc)
  | standing hplatform hidle hreads hprog hinput =>
    subst hplatform
    exact ⟨_, hostTurn_line hprog nofun (turn_wrBase a h.machine),
      .inl (.starting rfl hidle hreads rfl hinput (baseWritten_toNat _ a))⟩
  | starting hplatform hidle hreads hprog hinput hbase =>
    subst hplatform
    have hinput' : InputAt h.machine.platform h.machine.mem h.machine.base.toNat xs := by
      rw [hbase]
      exact inputAt_mod.2 hinput
    refine ⟨_, hostTurn_line hprog nofun (turn_start hidle),
      .inr ⟨rfl, rfl, rfl, hreads, runsOver_init hinput' hxs, rfl, rfl, ?_⟩⟩
    exact (startAddress_toNat h.machine).trans (by rw [hbase, Nat.mod_mod])

/-- In BUSY the host polls and goes on waiting. -/
theorem Waiting.host {k : Nat} {h : Session} (hh : Waiting p a xs k h) :
    ∃ h', hostTurn h = .next h' ∧ Waiting p a xs k h' := by
  have hpoll : statusFinished (statusWord h.machine) = false := by
    rw [← Bool.not_eq_true, statusFinished_statusWord, hh.busy]
    exact nofun
  have hturn := hostTurn_wait hh.prog
  rw [if_pos hpoll] at hturn
  exact ⟨_, hturn, hh.platform, rfl, hh.reads, runsOver_returnData _ hh.run, hh.busy, hh.count, hh.start⟩

/-- The host's turn brings the program's end one turn nearer. -/
theorem Finished.host {m : Nat} {h : Session} (hh : Finished xs (m + 1) h) :
    ∃ h', hostTurn h = .next h' ∧ Finished xs m h' := by
  cases hh with
  | waiting hdone hresult hprog hreads =>
    have hseen : statusFinished (statusWord h.machine) = true := (statusFinished_statusWord _).2 (.inl hdone)
    have hturn := hostTurn_wait hprog
    rw [hseen, if_neg nofun] at hturn
    exact ⟨_, hturn, .reading hdone hresult rfl hreads⟩
  | reading hdone hresult hprog hreads =>
    refine ⟨_, hostTurn_line hprog nofun (turn_rdResult h.machine), .ended hdone rfl ?_⟩
    change h.reads ++ [h.machine.result] = _
    rw [hreads, hresult, List.nil_append]

/-! ### The engine's turn in each stage -/

theorem Preparing.engine {m : Nat} {h : Session} (hh : Preparing p a xs m h) : engineTurn h = .next h :=
  engineTurn_of_none (engineInstr_none.2 (.inl hh.idle))

theorem Finished.done {m : Nat} {h : Session} (hh : Finished xs m h) : h.machine.st = .done := by
  cases hh <;> assumption

theorem Finished.engine {m : Nat} {h : Session} (hh : Finished xs m h) : engineTurn h = .next h := by
  refine engineTurn_of_none (engineInstr_none.2 (.inl ?_))
  rw [hh.done]
  exact nofun

/-- The engine absorbs the next byte of the string, and after the last it finishes. -/
theorem Waiting.engine {k : Nat} {h : Session} (hh : Waiting p a xs k h)
    (hread : readable h.machine.platform h.machine.ptr.toNat = true) :
    ∃ h', engineTurn h = .next h' ∧
      (k < xs.length ∧ Waiting p a xs (k + 1) h' ∨ k = xs.length ∧ Finished xs 2 h') := by
  obtain ⟨i, t, hi, hexec, hadv⟩ := hh.run.engine hh.busy hread
  refine ⟨_, engineTurn_of_next ((turn_engine_of_some hi).trans hexec), ?_⟩
  rcases Nat.lt_or_eq_of_le hh.run.length_le with hlt | hend
  · obtain ⟨hbusy, hcount, -⟩ := hadv.absorbs hlt
    exact .inl ⟨hh.count ▸ hlt, hadv.platform.trans hh.platform, hh.prog, hh.reads, hadv.run, hbusy,
      hcount.trans (by rw [hh.count]), hadv.start ▸ hh.start⟩
  · obtain ⟨hdone, -, hresult⟩ := hadv.finishes hend
    exact .inr ⟨hh.count.symm.trans hend, .waiting hdone hresult hh.prog hh.reads⟩

/-- At an unreadable PTR the engine's turn leaves the session. -/
theorem engineTurn_of_stuck {h : Session}
    (hread : readable h.machine.platform h.machine.ptr.toNat = false) : engineTurn h = .next h :=
  engineTurn_of_none (engineInstr_none.2 (.inr hread))

/-- Where the string and its terminator may be read, so may PTR. -/
theorem Waiting.readable_ptr {s : State} {k : Nat} {h : Session} (hh : Waiting s.platform a xs k h)
    (hread : ReadableInput s (a.toNat % s.platform.space) xs.length) :
    readable h.machine.platform h.machine.ptr.toNat = true := by
  rw [hh.run.ptr_toNat, hh.start, hh.platform]
  exact hread _ hh.run.length_le

/-! ### Every schedule -/

/-- The session is in one of the stages. -/
def Staged (p : Platform) (a : Word) (xs : List Byte) (h : Session) : Prop :=
  (∃ m, Preparing p a xs m h) ∨ (∃ k, Waiting p a xs k h) ∨ ∃ m, Finished xs m h

/-- Either agent's turn leads from a stage to a stage. -/
theorem Staged.turn {h : Session} (hxs : ∀ b ∈ xs, b ≠ 0) (hh : Staged p a xs h) (t : Bool) :
    ∃ h', sessionTurn t h = .next h' ∧ Staged p a xs h' := by
  rcases hh with ⟨m, hm⟩ | ⟨k, hk⟩ | ⟨m, hm⟩ <;> cases t
  case inl.false => exact ⟨h, hm.engine, .inl ⟨m, hm⟩⟩
  case inl.true =>
    obtain ⟨j, rfl⟩ := Nat.exists_eq_add_of_lt hm.pos
    rw [Nat.zero_add] at hm
    obtain ⟨h', hturn, hprep | ⟨-, hwait⟩⟩ := hm.host hxs
    · exact ⟨h', hturn, .inl ⟨j, hprep⟩⟩
    · exact ⟨h', hturn, .inr (.inl ⟨0, hwait⟩)⟩
  case inr.inl.false =>
    cases hread : readable h.machine.platform h.machine.ptr.toNat with
    | false => exact ⟨h, engineTurn_of_stuck hread, .inr (.inl ⟨k, hk⟩)⟩
    | true =>
      obtain ⟨h', hturn, ⟨-, hwait⟩ | ⟨-, hfin⟩⟩ := hk.engine hread
      · exact ⟨h', hturn, .inr (.inl ⟨k + 1, hwait⟩)⟩
      · exact ⟨h', hturn, .inr (.inr ⟨2, hfin⟩)⟩
  case inr.inl.true =>
    obtain ⟨h', hturn, hwait⟩ := hk.host
    exact ⟨h', hturn, .inr (.inl ⟨k, hwait⟩)⟩
  case inr.inr.false => exact ⟨h, hm.engine, .inr (.inr ⟨m, hm⟩)⟩
  case inr.inr.true =>
    cases m with
    | zero =>
      cases hm with
      | ended hdone hprog hreads =>
        exact ⟨h, hostTurn_of_nil hprog, .inr (.inr ⟨0, .ended hdone hprog hreads⟩)⟩
    | succ m =>
      obtain ⟨h', hturn, hfin⟩ := hm.host
      exact ⟨h', hturn, .inr (.inr ⟨m, hfin⟩)⟩

theorem sessionRun_cons {t : Bool} {ts : List Bool} {h h' : Session} (ht : sessionTurn t h = .next h') :
    sessionRun (t :: ts) h = sessionRun ts h' := by
  simp only [sessionRun, ht]

theorem sessionRun_host_cons {ts : List Bool} {h h' : Session} (ht : hostTurn h = .next h') :
    sessionRun (true :: ts) h = sessionRun ts h' := sessionRun_cons (t := true) ht

theorem sessionRun_engine_cons {ts : List Bool} {h h' : Session} (ht : engineTurn h = .next h') :
    sessionRun (false :: ts) h = sessionRun ts h' := sessionRun_cons (t := false) ht

/-- Every schedule leads from a stage to a stage. -/
theorem Staged.run {h h' : Session} (hxs : ∀ b ∈ xs, b ≠ 0) (hh : Staged p a xs h) {ts : List Bool}
    (hrun : sessionRun ts h = .next h') : Staged p a xs h' := by
  induction ts generalizing h with
  | nil =>
    cases hrun
    exact hh
  | cons t ts ih =>
    obtain ⟨u, hturn, hu⟩ := hh.turn hxs t
    rw [sessionRun_cons hturn] at hrun
    exact ih hu hrun

/-- Before the program's end a line is left. -/
theorem Finished.prog_ne_nil {m : Nat} {h : Session} (hh : Finished xs (m + 1) h) : h.prog ≠ [] := by
  cases hh with
  | waiting _ _ hprog _ => exact fun hnil => nomatch hprog.symm.trans hnil
  | reading _ _ hprog _ => exact fun hnil => nomatch hprog.symm.trans hnil

/-- Only in the last stage has the program ended. -/
theorem Staged.ended {h : Session} (hh : Staged p a xs h) (hprog : h.prog = []) : Finished xs 0 h := by
  rcases hh with ⟨m, hm⟩ | ⟨k, hk⟩ | ⟨m, hm⟩
  · exact absurd hprog hm.prog_ne_nil
  · exact nomatch hk.prog.symm.trans hprog
  · cases m with
    | zero => exact hm
    | succ m => exact absurd hprog hm.prog_ne_nil

theorem Finished.reads_eq {h : Session} (hh : Finished xs 0 h) : h.reads = [compute xs] := by
  cases hh with
  | ended _ _ hreads => exact hreads

theorem Finished.prog_eq {h : Session} (hh : Finished xs 0 h) : h.prog = [] := by
  cases hh with
  | ended _ hprog _ => exact hprog

/-- At the end the host prints the value it read (42_host_interface.md R107). -/
theorem Finished.outcome {h : Session} (hh : Finished xs 0 h) (n : Nat) :
    ∃ o, cliOutcome (some xs) n h = some o ∧ o.exit = 0 ∧ o.stdout = outputLine (compute xs) := by
  refine ⟨cliSuccess (compute xs), ?_, rfl, rfl⟩
  rw [cliOutcome, hh.reads_eq]
  rfl

/-- Settles O49: `hash a` begins with the string standing at `a`, and every schedule keeps to the stages. -/
theorem hashReadsComputeUnderEveryInterleaving : Obligations.HashReadsComputeUnderEveryInterleaving := by
  unfold Obligations.HashReadsComputeUnderEveryInterleaving
  intro s a n ts h hidle hterm hrun hprog
  have hstart := preparing_hash hidle (inputAt_mod.1 (inputAt_of_terminated hterm))
  have hstaged : Staged s.platform a _ h := Staged.run hterm.1 (.inl ⟨2, hstart⟩) hrun
  exact (hstaged.ended hprog).reads_eq

/-- Settles O52: an invocation begins with its cells to be placed, and every schedule keeps to the stages. -/
theorem invocationPrintsComputeUnderEveryInterleaving : Obligations.InvocationPrintsComputeUnderEveryInterleaving := by
  unfold Obligations.InvocationPrintsComputeUnderEveryInterleaving
  intro s a xs ts h n hidle hwf hfit hxs hrun hprog
  have hstaged : Staged s.platform a xs h := Staged.run hxs (.inl ⟨_, preparing_invocation hidle hwf hfit⟩) hrun
  have hend := hstaged.ended hprog
  exact ⟨hend.reads_eq, hend.outcome n⟩

/-! ### One fair schedule -/

theorem sessionRun_append {ts us : List Bool} {h h' : Session} (hrun : sessionRun ts h = .next h') :
    sessionRun (ts ++ us) h = sessionRun us h' := by
  induction ts generalizing h with
  | nil =>
    cases hrun
    rfl
  | cons t ts ih =>
    simp only [sessionRun, List.cons_append] at hrun ⊢
    split at hrun
    · next u hu => exact ih hrun
    · cases hrun
    · cases hrun

/-- The host alone comes to the accepted START. -/
theorem Preparing.run_host {m : Nat} {h : Session} (hxs : ∀ b ∈ xs, b ≠ 0) (hh : Preparing p a xs m h) :
    ∃ h', sessionRun (List.replicate m true) h = .next h' ∧ Waiting p a xs 0 h' := by
  induction m generalizing h with
  | zero => exact absurd hh.pos (Nat.lt_irrefl 0)
  | succ m ih =>
    obtain ⟨u, hturn, hprep | ⟨rfl, hwait⟩⟩ := hh.host hxs
    · obtain ⟨h', hrun, hwait⟩ := ih hprep
      exact ⟨h', (sessionRun_host_cons hturn).trans hrun, hwait⟩
    · exact ⟨u, sessionRun_host_cons hturn, hwait⟩

/-- The engine alone absorbs the bytes left and finishes. -/
theorem Waiting.run_engine {s : State} {k d : Nat} {h : Session} (hh : Waiting s.platform a xs k h)
    (hread : ReadableInput s (a.toNat % s.platform.space) xs.length) (hd : k + d = xs.length) :
    ∃ h', sessionRun (List.replicate (d + 1) false) h = .next h' ∧ Finished xs 2 h' := by
  induction d generalizing k h with
  | zero =>
    obtain ⟨u, hturn, ⟨hlt, -⟩ | ⟨-, hfin⟩⟩ := hh.engine (hh.readable_ptr hread)
    · omega
    · exact ⟨u, sessionRun_engine_cons hturn, hfin⟩
  | succ d ih =>
    obtain ⟨u, hturn, ⟨-, hwait⟩ | ⟨hend, -⟩⟩ := hh.engine (hh.readable_ptr hread)
    · obtain ⟨h', hrun, hfin⟩ := ih hwait (by omega)
      exact ⟨h', (sessionRun_engine_cons hturn).trans hrun, hfin⟩
    · omega

/-- The host alone comes to the program's end. -/
theorem Finished.run_host {m : Nat} {h : Session} (hh : Finished xs m h) :
    ∃ h', sessionRun (List.replicate m true) h = .next h' ∧ Finished xs 0 h' := by
  induction m generalizing h with
  | zero => exact ⟨h, rfl, hh⟩
  | succ m ih =>
    obtain ⟨u, hturn, hfin⟩ := hh.host
    obtain ⟨h', hrun, hend⟩ := ih hfin
    exact ⟨h', (sessionRun_host_cons hturn).trans hrun, hend⟩

/-- Settles O53: the host's turns up to the START, the engine's for the string and its terminator, and the host's
last two. -/
theorem invocationEndsUnderAFairSchedule : Obligations.InvocationEndsUnderAFairSchedule := by
  unfold Obligations.InvocationEndsUnderAFairSchedule
  intro s a xs n hidle hwf hfit hxs hread
  obtain ⟨h1, hrun1, hwait⟩ := (preparing_invocation (a := a) hidle hwf hfit).run_host hxs
  obtain ⟨h2, hrun2, hfin⟩ := hwait.run_engine hread (Nat.zero_add _)
  obtain ⟨h3, hrun3, hend⟩ := hfin.run_host
  refine ⟨h3, ?_, hend.prog_eq, hend.done, hend.outcome n⟩
  rw [List.append_assoc, sessionRun_append hrun1, sessionRun_append hrun2]
  exact hrun3

/-! ### A missing argument -/

/-- Settles O54: the one line is START_ABSENT, which raises InvalidInput, and the exit status is a successor. -/
theorem missingArgumentExitsNonZero : Obligations.MissingArgumentExitsNonZero := by
  unfold Obligations.MissingArgumentExitsNonZero
  intro s a n hidle
  have hturn := hostTurn_line (h := invocation s none a) rfl nofun (turn_startAbsent hidle)
  exact ⟨_, cliMissingArgument n, sessionRun_host_cons hturn, rfl, rfl, rfl, Nat.succ_ne_zero _, rfl⟩

end Sys2Proof.Machine
end

section
/-! The fairness premise (70_reset_and_hazards.md R144): one leads-to rule for a weakly fair agent, and with it the run
that reaches DONE, the whole invocation that comes to its end, and the run that starves without the premise. -/

namespace Sys2Proof.Machine

open Sys2Proof.Config

/-! ### Leads-to under weak fairness -/

/-- Where the first point after `k` that does not satisfy `R` exists, everything before it does. -/
theorem first_failure {R : Nat → Prop} {k : Nat} (h : ¬ ∀ m, k ≤ m → R m) :
    ∃ m, k ≤ m ∧ ¬ R m ∧ ∀ j, k ≤ j → j < m → R j := by
  classical
  have hex : ∃ m, k ≤ m ∧ ¬ R m := by
    push Not at h
    exact h
  refine ⟨Nat.find hex, (Nat.find_spec hex).1, (Nat.find_spec hex).2, fun j hkj hj => ?_⟩
  by_contra hR
  exact Nat.find_min hex hj ⟨hkj, hR⟩

/-- An agent that is enabled while the measure `μ` stands, and whose turn lowers it or reaches the goal, reaches the
goal when it is fair; up to there the measure stands. -/
theorem leadsTo_of_weaklyFair {enabled taken : Nat → Prop} (hfair : WeaklyFair enabled taken) {P : Nat → Nat → Prop}
    {Q : Nat → Prop} (henabled : ∀ μ k, P μ k → enabled k)
    (hstep : ∀ μ k, P μ k → (¬ taken k ∧ P μ (k + 1)) ∨ (∃ ν < μ, P ν (k + 1)) ∨ Q (k + 1)) (μ k : Nat) (hP : P μ k) :
    ∃ m, k < m ∧ Q m ∧ ∀ j, k ≤ j → j < m → ∃ ν, P ν j := by
  induction μ using Nat.strong_induction_on generalizing k with
  | _ μ ih =>
    have hleaves : ¬ ∀ m, k ≤ m → ¬ taken m ∧ P μ (m + 1) := by
      intro hstays
      have henabledAlways : ∀ m, k ≤ m → enabled m := by
        intro m hm
        rcases Nat.eq_or_lt_of_le hm with rfl | hlt
        · exact henabled μ k hP
        · obtain ⟨j, rfl⟩ : ∃ j, m = j + 1 := ⟨m - 1, by omega⟩
          exact henabled μ _ (hstays j (by omega)).2
      obtain ⟨m, hm, htaken⟩ := hfair k henabledAlways
      exact (hstays m hm).1 htaken
    obtain ⟨m, hkm, hfirst, hbefore⟩ := first_failure hleaves
    have hstands : ∀ j, k ≤ j → j ≤ m → P μ j := by
      intro j hkj hjm
      rcases Nat.eq_or_lt_of_le hkj with rfl | hlt
      · exact hP
      · obtain ⟨i, rfl⟩ : ∃ i, j = i + 1 := ⟨j - 1, by omega⟩
        exact (hbefore i (by omega) (by omega)).2
    rcases hstep μ m (hstands m hkm (Nat.le_refl m)) with hstays | ⟨ν, hν, hnext⟩ | hgoal
    · exact absurd hstays hfirst
    · obtain ⟨n, hmn, hgoal, hrest⟩ := ih ν hν (m + 1) hnext
      refine ⟨n, by omega, hgoal, fun j hkj hjn => ?_⟩
      rcases Nat.lt_or_ge m j with hlt | hge
      · exact hrest j hlt hjn
      · exact ⟨μ, hstands j hkj hge⟩
    · exact ⟨m + 1, by omega, hgoal, fun j hkj hj => ⟨μ, hstands j hkj (by omega)⟩⟩

/-! ### A run beside any host -/

/-- An event that is neither the engine's, nor a reset, nor a byte placed in the string leaves a run over the string as
far as it was (20_memory.md R39, 42_host_interface.md R105). -/
theorem RunsOver.keeps {xs : List Byte} {e : Event} {s t : State} (h : RunsOver xs s) (hbusy : s.st = .busy)
    (heffect : Effect (some e) s t) (hengine : e ≠ .engine) (hreset : e ≠ .reset)
    (hplace : ∀ a b, e = .place a b → ∀ j ≤ xs.length, a ≠ (s.runStart.toNat + j) % s.platform.space) :
    RunsOver xs t ∧ t.st = .busy ∧ t.consumed = s.consumed ∧ t.platform = s.platform ∧ t.runStart = s.runStart := by
  cases heffect with
  | nothing => exact ⟨h, hbusy, rfl, rfl, rfl⟩
  | absorb hturn _ _ => exact absurd (Option.some.inj (hturn.resolve_left nofun)) hengine
  | finalize hturn _ _ => exact absurd (Option.some.inj (hturn.resolve_left nofun)) hengine
  | read v => exact ⟨runsOver_returnData v h, hbusy, rfl, rfl, rfl⟩
  | writeBase v _ _ => exact ⟨runsOver_writeBase v h, hbusy, rfl, rfl, rfl⟩
  | start hidle _ _ _ => exact absurd hbusy hidle
  | startAbsent hidle _ _ _ => exact absurd hbusy hidle
  | reset => exact absurd rfl hreset
  | place b ha => exact ⟨runsOver_placeByte b h ha (hplace _ b rfl), hbusy, rfl, rfl, rfl⟩

/-- The run that a START in `s` began, over `xs`, is in progress with `d` bytes left to absorb. -/
structure InProgress (s : State) (xs : List Byte) (d : Nat) (t : State) : Prop where
  run : RunsOver xs t
  busy : t.st = .busy
  left : t.consumed.length + d = xs.length
  platform : t.platform = s.platform
  start : t.runStart.toNat = s.base.toNat % s.platform.space

/-- A run over a readable string has PTR at an address that may be read. -/
theorem InProgress.readable_ptr {s t : State} {xs : List Byte} {d : Nat} (h : InProgress s xs d t)
    (hread : ReadableInput s (s.base.toNat % s.platform.space) xs.length) :
    readable t.platform t.ptr.toNat = true := by
  rw [h.run.ptr_toNat, h.start, h.platform]
  exact hread _ h.run.length_le

/-- One turn of a run over a readable string, whatever it is: the run is kept as it is, or brought on, or done. -/
theorem InProgress.turn {s t u : State} {xs : List Byte} {d : Nat} {e : Event} (h : InProgress s xs d t)
    (hread : ReadableInput s (s.base.toNat % s.platform.space) xs.length) (hturn : turn e t = .next u)
    (hreset : e ≠ .reset)
    (hplace : ∀ a b, e = .place a b → ∀ j ≤ xs.length, a ≠ (s.base.toNat + j) % s.platform.space) :
    (e ≠ .engine ∧ InProgress s xs d u) ∨ (∃ c < d, InProgress s xs c u) ∨
      (u.st = .done ∧ u.errCode = 0 ∧ u.result = compute xs) := by
  by_cases he : e = .engine
  · subst he
    obtain ⟨i, v, hi, hexec, hadv⟩ := h.run.engine h.busy (h.readable_ptr hread)
    obtain rfl : u = v := Host.Outcome.next.inj (hturn.symm.trans ((turn_engine_of_some hi).trans hexec))
    have hleft := h.left
    rcases Nat.lt_or_eq_of_le h.run.length_le with hlt | hend
    · obtain ⟨hbusy, hcount, -⟩ := hadv.absorbs hlt
      exact .inr (.inl ⟨d - 1, by omega, hadv.run, hbusy, by omega, hadv.platform.trans h.platform,
        hadv.start ▸ h.start⟩)
    · obtain ⟨hdone, -, hresult⟩ := hadv.finishes hend
      exact .inr (.inr ⟨hdone, hadv.run.errCode, hresult⟩)
  · have hclear : ∀ a b, e = .place a b → ∀ j ≤ xs.length, a ≠ (t.runStart.toNat + j) % t.platform.space := by
      intro a b hab j hj
      rw [h.start, h.platform, Nat.mod_add_mod]
      exact hplace a b hab j hj
    obtain ⟨hrun, hbusy, hconsumed, hplatform, hstart⟩ := h.run.keeps h.busy (turn_effect hturn) he hreset hclear
    exact .inl ⟨he, hrun, hbusy, hconsumed ▸ h.left, hplatform.trans h.platform, hstart ▸ h.start⟩

/-- Settles O57: after the accepted START the bytes left to absorb are the measure of the leads-to rule; while the run
is in progress over a readable string the engine is enabled, and no turn of another agent undoes the run. -/
theorem fairRunReachesDone : Obligations.FairRunReachesDone := by
  unfold Obligations.FairRunReachesDone
  intro es u n hu hfair hidle hes hterm hread hreset hplace
  have hstart : u 1 = init (u 0) := by
    have h0 : turn (.host (accessOf (u 0).platform 0b100 0x00000003)) (u 0) = .next (u 1) := hes ▸ hu 0
    exact Host.Outcome.next.inj (h0.symm.trans (turn_start hidle))
  have hinput := inputAt_mod.1 (inputAt_of_terminated hterm)
  have hnonzero := hterm.1
  have hlen := inputBytes_length (u 0).platform (u 0).mem ((u 0).base.toNat % (u 0).platform.space) n
  generalize inputBytes (u 0).platform (u 0).mem ((u 0).base.toNat % (u 0).platform.space) n = xs at *
  subst hlen
  have hfirst : InProgress (u 0) xs xs.length (u 1) := by
    rw [hstart]
    exact ⟨runsOver_init hinput hnonzero, rfl, Nat.zero_add _, rfl, startAddress_toNat _⟩
  obtain ⟨m, hm, ⟨hdone, herr, hresult⟩, hbefore⟩ :=
    leadsTo_of_weaklyFair hfair (P := fun d k => InProgress (u 0) xs d (u k))
      (Q := fun k => (u k).st = .done ∧ (u k).errCode = 0 ∧ (u k).result = compute xs)
      (fun d k h => by rw [engineEnabled, h.busy, h.readable_ptr hread]; rfl)
      (fun d k h => h.turn hread (hu k) (hreset k) (hplace k)) xs.length 1 hfirst
  refine ⟨m, by omega, fun j hj hjm => ?_, hdone, herr, hresult⟩
  obtain ⟨d, hd⟩ := hbefore j hj hjm
  exact hd.busy

/-! ### The starving host -/

/-- The states of a machine that only answers status reads. -/
def polled (s : State) : Nat → State
  | 0 => s
  | _ + 1 => returnData (statusWord s) s

/-- A status read of a polled machine leaves it polled. -/
theorem polled_behaviour (s : State) : Behaviour (fun _ => .host (accessOf s.platform 0b001 0)) (polled s)
  | 0 => turn_wait s
  | k + 1 => turn_wait (polled s (k + 1))

theorem polled_engineEnabled (s : State) (k : Nat) : engineEnabled (polled s k) = engineEnabled s := by
  cases k <;> rfl

/-- Settles O58: the polling host takes every turn, so the engine stays enabled and is never taken. -/
theorem unfairBehaviourStarvesTheRun : Obligations.UnfairBehaviourStarvesTheRun := by
  unfold Obligations.UnfairBehaviourStarvesTheRun
  intro s hbusy hread
  refine ⟨_, polled s, polled_behaviour s, rfl, fun _ => rfl, fun k => ?kept, fun hfair => ?unfair⟩
  case kept => cases k <;> exact ⟨hbusy, rfl, rfl⟩
  case unfair =>
    have henabled : ∀ k, engineEnabled (polled s k) = true := by
      intro k
      rw [polled_engineEnabled, engineEnabled, hbusy, hread]
      rfl
    obtain ⟨m, -, hm⟩ := hfair 0 fun k _ => henabled k
    exact nomatch hm

/-! ### The whole invocation -/

section
variable {ts : Nat → Bool} {h : Nat → Session} {a : Word} {xs : List Byte}

theorem sessionBehaviour_next {k : Nat} {t : Bool} {h' : Session} (hh : SessionBehaviour ts h) (ht : ts k = t)
    (hturn : sessionTurn t (h k) = .next h') : h (k + 1) = h' :=
  Host.Outcome.next.inj ((hh k).symm.trans (ht ▸ hturn))

/-- Until the accepted START the engine's turns change nothing, and the host's bring it nearer. -/
theorem Preparing.next {p : Platform} (hh : SessionBehaviour ts h) (hxs : ∀ b ∈ xs, b ≠ 0) {m k : Nat}
    (hm : Preparing p a xs m (h k)) :
    (¬ ts k = true ∧ Preparing p a xs m (h (k + 1))) ∨ (∃ i < m, Preparing p a xs i (h (k + 1))) ∨
      Waiting p a xs 0 (h (k + 1)) := by
  cases ht : ts k with
  | false =>
    rw [sessionBehaviour_next hh ht hm.engine]
    exact .inl ⟨Bool.false_ne_true, hm⟩
  | true =>
    obtain ⟨i, rfl⟩ : ∃ i, m = i + 1 := Nat.exists_eq_succ_of_ne_zero hm.pos.ne'
    obtain ⟨h', hturn, hprep | ⟨-, hwait⟩⟩ := hm.host hxs <;> rw [sessionBehaviour_next hh ht hturn]
    · exact .inr (.inl ⟨i, Nat.lt_succ_self i, hprep⟩)
    · exact .inr (.inr hwait)

/-- A host that is fair comes to the accepted START. -/
theorem Preparing.leadsTo_waiting {p : Platform} (hh : SessionBehaviour ts h) (hhost : SessionHostFair ts h)
    (hxs : ∀ b ∈ xs, b ≠ 0) {m k : Nat} (hm : Preparing p a xs m (h k)) : ∃ j, Waiting p a xs 0 (h j) := by
  obtain ⟨j, -, hj, -⟩ := leadsTo_of_weaklyFair hhost (P := fun m k => Preparing p a xs m (h k))
    (Q := fun k => Waiting p a xs 0 (h k)) (fun _ _ hm => hm.prog_ne_nil) (fun _ _ hm => hm.next hh hxs) m k hm
  exact ⟨j, hj⟩

/-- The host waits for a run with `d` bytes left to absorb. -/
def WaitingFor (p : Platform) (a : Word) (xs : List Byte) (d : Nat) (h : Session) : Prop :=
  ∃ k, k + d = xs.length ∧ Waiting p a xs k h

/-- Until the run's end the host only polls, and the engine's turns bring it nearer. -/
theorem WaitingFor.next {s : State} (hh : SessionBehaviour ts h)
    (hread : ReadableInput s (a.toNat % s.platform.space) xs.length) {d k : Nat}
    (hd : WaitingFor s.platform a xs d (h k)) :
    (¬ ts k = false ∧ WaitingFor s.platform a xs d (h (k + 1))) ∨
      (∃ c < d, WaitingFor s.platform a xs c (h (k + 1))) ∨ Finished xs 2 (h (k + 1)) := by
  obtain ⟨c, hc, hwait⟩ := hd
  cases ht : ts k with
  | true =>
    obtain ⟨h', hturn, hwait'⟩ := hwait.host
    rw [sessionBehaviour_next hh ht hturn]
    exact .inl ⟨Bool.noConfusion, c, hc, hwait'⟩
  | false =>
    obtain ⟨h', hturn, ⟨hlt, hwait'⟩ | ⟨-, hfin⟩⟩ := hwait.engine (hwait.readable_ptr hread) <;>
      rw [sessionBehaviour_next hh ht hturn]
    · exact .inr (.inl ⟨d - 1, by omega, c + 1, by omega, hwait'⟩)
    · exact .inr (.inr hfin)

theorem WaitingFor.engineEnabled {s : State} {g : Session} {d : Nat}
    (hread : ReadableInput s (a.toNat % s.platform.space) xs.length) (hd : WaitingFor s.platform a xs d g) :
    engineEnabled g.machine = true := by
  obtain ⟨c, -, hwait⟩ := hd
  rw [Machine.engineEnabled, hwait.busy, hwait.readable_ptr hread]
  rfl

/-- An engine that is fair comes to the end of the run. -/
theorem WaitingFor.leadsTo_finished {s : State} (hh : SessionBehaviour ts h) (hengine : SessionEngineFair ts h)
    (hread : ReadableInput s (a.toNat % s.platform.space) xs.length) {d k : Nat}
    (hd : WaitingFor s.platform a xs d (h k)) : ∃ j, Finished xs 2 (h j) := by
  obtain ⟨j, -, hj, -⟩ := leadsTo_of_weaklyFair hengine (P := fun d k => WaitingFor s.platform a xs d (h k))
    (Q := fun k => Finished xs 2 (h k)) (fun _ _ hd => hd.engineEnabled hread) (fun _ _ hd => hd.next hh hread) d k hd
  exact ⟨j, hj⟩

/-- Until the program's end the engine's turns change nothing, and the host's bring it nearer. -/
theorem Finished.next (hh : SessionBehaviour ts h) {m k : Nat} (hm : Finished xs (m + 1) (h k)) :
    (¬ ts k = true ∧ Finished xs (m + 1) (h (k + 1))) ∨ (∃ i < m, Finished xs (i + 1) (h (k + 1))) ∨
      Finished xs 0 (h (k + 1)) := by
  cases ht : ts k with
  | false =>
    rw [sessionBehaviour_next hh ht hm.engine]
    exact .inl ⟨Bool.false_ne_true, hm⟩
  | true =>
    obtain ⟨h', hturn, hfin⟩ := hm.host
    rw [sessionBehaviour_next hh ht hturn]
    cases m with
    | zero => exact .inr (.inr hfin)
    | succ m => exact .inr (.inl ⟨m, Nat.lt_succ_self m, hfin⟩)

/-- A host that is fair comes to the program's end once the run is done. -/
theorem Finished.leadsTo_ended (hh : SessionBehaviour ts h) (hhost : SessionHostFair ts h) {m k : Nat}
    (hm : Finished xs (m + 1) (h k)) : ∃ j, Finished xs 0 (h j) := by
  obtain ⟨j, -, hj, -⟩ := leadsTo_of_weaklyFair hhost (P := fun m k => Finished xs (m + 1) (h k))
    (Q := fun k => Finished xs 0 (h k)) (fun _ _ hm => hm.prog_ne_nil) (fun _ _ hm => hm.next hh) m k hm
  exact ⟨j, hj⟩

end

/-- Settles O59: the stages of the invocation, each left by the agent whose turn it needs. -/
theorem invocationEndsUnderEveryFairSchedule : Obligations.InvocationEndsUnderEveryFairSchedule := by
  unfold Obligations.InvocationEndsUnderEveryFairSchedule
  intro s a xs n ts h hidle hwf hfit hxs hread hh hfirst hengine hhost
  have hprep : Preparing s.platform a xs (xs.length + 3) (h 0) := hfirst ▸ preparing_invocation hidle hwf hfit
  obtain ⟨i, hwait⟩ := hprep.leadsTo_waiting hh hhost hxs
  have hwaitFor : WaitingFor s.platform a xs xs.length (h i) := ⟨0, Nat.zero_add _, hwait⟩
  obtain ⟨j, hfin⟩ := hwaitFor.leadsTo_finished hh hengine hread
  obtain ⟨k, hend⟩ := hfin.leadsTo_ended hh hhost
  exact ⟨k, hend.prog_eq, hend.done, hend.outcome n⟩

end Sys2Proof.Machine
end

section
/-! Several blocks on one platform (60_exceptions.md R126): what a step of one of them can make of the list, who is left
as it was, and that they stay on one platform. -/

namespace Sys2Proof.Machine

open Sys2Proof.Config

/-! ### What a step of the list can do -/

/-- A step whose event places a byte does that and no more. -/
theorem step_place {s t : State} {a : Nat} {b : Byte} (he : s.events.head? = some (.place a b)) (h : step s = .next t) :
    t = placeByte a b (setEvents s.events.tail s) := by
  obtain ⟨es, hes⟩ := List.head?_eq_some_iff.1 he
  rw [step_of_event hes, turn] at h
  split at h
  · rw [hes]
    exact (Host.Outcome.next.inj h).symm
  · cases h

theorem step_platform {s t : State} (h : step s = .next t) : t.platform = s.platform :=
  (effect_platform (step_effect h)).trans (setEvents_platform _ _)

/-- Everything a step of block `n` can do where it answers a next list: the block's own step, with a placed byte placed
for every block and nothing else for the others. -/
theorem stepInstance_next {n : Nat} {l l' : Instances} (h : stepInstance n l = .next l') :
    ∃ s t, l[n]? = some s ∧ step s = .next t ∧
      ((∃ a b, s.events.head? = some (.place a b) ∧ l' = (l.map (placeByte a b)).set n t) ∨
        ((∀ a b, s.events.head? ≠ some (.place a b)) ∧ l' = l.set n t)) := by
  unfold stepInstance at h
  split at h
  · cases h
  · next s hs =>
    split at h
    · next t ht =>
      refine ⟨s, t, hs, ht, ?_⟩
      split at h
      · next a b hab => exact .inl ⟨a, b, hab, (Host.Outcome.next.inj h).symm⟩
      · next hnot => exact .inr ⟨hnot, (Host.Outcome.next.inj h).symm⟩
    · cases h
    · cases h

/-- Settles O55: the list is set at `n` only, after a placed byte has been placed for each. -/
theorem instancesDoNotInteract : Obligations.InstancesDoNotInteract := by
  unfold Obligations.InstancesDoNotInteract
  intro l l' n h
  obtain ⟨s, t, hs, -, ⟨a, b, hab, rfl⟩ | ⟨-, rfl⟩⟩ := stepInstance_next h
  · refine ⟨by rw [List.length_set, List.length_map], fun m u hm hu => ⟨placeByte a b u, ?_, rfl, fun hnot => ?_⟩⟩
    · rw [List.getElem?_set_ne hm.symm, List.getElem?_map, hu]
      rfl
    · exact absurd hab (hnot s a b hs)
  · refine ⟨List.length_set, fun m u hm hu => ⟨u, ?_, rfl, fun _ => rfl⟩⟩
    rw [List.getElem?_set_ne hm.symm, hu]

/-! ### One platform -/

/-- Two blocks of one platform: windows apart over one input byte space. -/
def OnePlatform (s t : State) : Prop :=
  windowsApart s t = true ∧ s.mem = t.mem ∧ s.platform.addrWidthPred = t.platform.addrWidthPred ∧
    s.platform.unreadable = t.platform.unreadable

/-- Being on one platform is about platforms and memories only. -/
theorem OnePlatform.congr {s s' t t' : State} (h : OnePlatform s t) (hsp : s'.platform = s.platform)
    (hsm : s'.mem = s.mem) (htp : t'.platform = t.platform) (htm : t'.mem = t.mem) : OnePlatform s' t' := by
  rw [OnePlatform, windowsApart, hsp, hsm, htp, htm]
  exact h

/-- A byte placed for both leaves both on one platform. -/
theorem OnePlatform.placeByte {s t : State} (a : Nat) (b : Byte) (h : OnePlatform s t) :
    OnePlatform (placeByte a b s) (placeByte a b t) := by
  obtain ⟨hwindows, hmem, hwidth, hreadable⟩ := h
  exact ⟨hwindows, by rw [placeByte_mem, placeByte_mem, hmem], hwidth, hreadable⟩

/-- A pairwise relation outlives the exchange of one member for another that is related alike. -/
theorem pairwise_set {α : Type} {R : α → α → Prop} {l : List α} {n : Nat} {x y : α} (h : l.Pairwise R)
    (hx : l[n]? = some x) (hleft : ∀ z, R z x → R z y) (hright : ∀ z, R x z → R y z) : (l.set n y).Pairwise R := by
  induction l generalizing n with
  | nil => exact h
  | cons z l ih =>
    obtain ⟨hhead, htail⟩ := List.pairwise_cons.1 h
    cases n with
    | zero =>
      obtain rfl : z = x := Option.some.inj hx
      exact List.pairwise_cons.2 ⟨fun w hw => hright w (hhead w hw), htail⟩
    | succ n =>
      have hmem : x ∈ l := List.mem_of_getElem? hx
      refine List.pairwise_cons.2 ⟨fun w hw => ?_, ih htail hx⟩
      rcases List.mem_or_eq_of_mem_set hw with hw | rfl
      · exact hhead w hw
      · exact hleft z (hhead x hmem)

/-- The list stays on one platform when a block is exchanged for one of its platform and memory. -/
theorem onePlatform_set {l : Instances} {n : Nat} {s t : State} (h : l.Pairwise OnePlatform) (hs : l[n]? = some s)
    (hplatform : t.platform = s.platform) (hmem : t.mem = s.mem) : (l.set n t).Pairwise OnePlatform :=
  pairwise_set h hs (fun _ hz => hz.congr rfl rfl hplatform hmem) fun _ hz => hz.congr hplatform hmem rfl rfl

/-- Settles O56: the block's own step keeps its platform, and its memory but for a byte that is placed for all. -/
theorem instancesStayOnOnePlatform : Obligations.InstancesStayOnOnePlatform := by
  unfold Obligations.InstancesStayOnOnePlatform
  rintro l l' n ⟨hne, hpair⟩ h
  have hpair : l.Pairwise OnePlatform := hpair
  obtain ⟨s, t, hs, hstep, ⟨a, b, hab, rfl⟩ | ⟨hnot, rfl⟩⟩ := stepInstance_next h
  · have ht := step_place hab hstep
    have hplaced : (l.map (placeByte a b)).Pairwise OnePlatform :=
      hpair.map (placeByte a b) fun _ _ huv => huv.placeByte a b
    have hs' : (l.map (placeByte a b))[n]? = some (placeByte a b s) := by rw [List.getElem?_map, hs]; rfl
    exact ⟨by simpa using hne, onePlatform_set hplaced hs' (by rw [ht]; rfl) (by rw [ht]; rfl)⟩
  · have hplatform : t.platform = s.platform := step_platform hstep
    exact ⟨by simpa using hne, onePlatform_set hpair hs hplatform (step_mem_of_not_place hstep hnot)⟩

end Sys2Proof.Machine
end
